-- ==== Sys2Proof/Word.lean ====
section
/-! DEFINITION. The widths of the machine (R7, R8, R10, R11): words, bytes, register indices and instruction fields. -/

namespace Sys2Proof

/-- A 32-bit value: an instruction word, a register, an operand, an address, the program counter (R7, `u32` of R11). -/
abbrev Word := BitVec 32

/-- One byte of the data store (R75). -/
abbrev Byte := BitVec 8

/-- A register index (`u5`, R8). -/
abbrev RegIdx := BitVec 5

/-- An opcode, or the funct field of a register-type word (R101). -/
abbrev Field6 := BitVec 6

/-- A 16-bit immediate before its sign extension (`u16`, R101, R103). -/
abbrev Imm16 := BitVec 16

/-- The 26-bit jump target field (`u26`, R101, R104). -/
abbrev Target26 := BitVec 26

/-- An ALU control code (`u4`, R9, R108). -/
abbrev AluCode := BitVec 4

end Sys2Proof
end

