-- ==== Sys2Proof/Syntax.lean ====
section
/-! DEFINITION. The instructions: one constructor per row of spec/opcode_table.json (R105, R106, R110, R112). A constructor
carries every bit of its word, the ignored ones too, because the word itself travels down the pipeline (R41 to R45). -/

namespace Sys2Proof

/-- The eleven rows of the opcode table. `shamt` is the field every register-type word ignores (R101, D10). -/
inductive Instr where
  /-- ADD (R225). -/
  | add (rs rt rd shamt : RegIdx)
  /-- SUB (R226). -/
  | sub (rs rt rd shamt : RegIdx)
  /-- AND (R227). -/
  | and (rs rt rd shamt : RegIdx)
  /-- OR (R228). -/
  | or (rs rt rd shamt : RegIdx)
  /-- SLT, unsigned (R229). -/
  | slt (rs rt rd shamt : RegIdx)
  /-- LW (R261). -/
  | lw (rs rt : RegIdx) (imm : Imm16)
  /-- SW (R262). -/
  | sw (rs rt : RegIdx) (imm : Imm16)
  /-- BEQ (R280). -/
  | beq (rs rt : RegIdx) (imm : Imm16)
  /-- J (R281). -/
  | j (target : Target26)
  /-- RTYPE_UNMAPPED_FUNCT: a register-type word whose funct is none of the five (R300); the NOP is one of them (R302). -/
  | rtypeUnmappedFunct (rs rt rd shamt : RegIdx) (funct : Field6)
  /-- UNMAPPED_OPCODE: a word whose opcode is none of the five (R301); `rest` is its bits 25..0. -/
  | unmappedOpcode (opcode : Field6) (rest : BitVec 26)
deriving DecidableEq, Repr

end Sys2Proof
end

