-- ==== Sys2Proof/WellFormed.lean ====
section
/-! DEFINITION. Which terms of `Instr` stand for a word (R112): the two catch-all rows of the opcode table exclude the
encodings of the rows with a lower priority value. Every other operand is a bit vector of its field's width, so nothing else
needs a check. -/

namespace Sys2Proof

/-- The five functs of R106. -/
def mappedFuncts : List Field6 := [0x20#6, 0x22#6, 0x24#6, 0x25#6, 0x2A#6]

/-- The five opcodes of R105. -/
def mappedOpcodes : List Field6 := [0x00#6, 0x02#6, 0x04#6, 0x23#6, 0x2B#6]

/-- R300 and R301: a catch-all row holds only what no row of lower priority value takes (R112). -/
def Instr.wellFormed : Instr → Bool
  | .add _ _ _ _ => true
  | .sub _ _ _ _ => true
  | .and _ _ _ _ => true
  | .or _ _ _ _ => true
  | .slt _ _ _ _ => true
  | .lw _ _ _ => true
  | .sw _ _ _ => true
  | .beq _ _ _ => true
  | .j _ => true
  | .rtypeUnmappedFunct _ _ _ _ funct => !mappedFuncts.contains funct
  | .unmappedOpcode opcode _ => !mappedOpcodes.contains opcode

end Sys2Proof
end

