-- ==== Sys2Proof/Decode.lean ====
section
/-! DEFINITION. Field positions (R101), the opcode and funct maps (R105, R106), the decoder, which is total (R110, R112), and
after it the encoder of the three formats (R102). -/

namespace Sys2Proof

/-! ## Fields (R101): extracted positionally from every word -/

/-- `instr[31:26]`. -/
def opcodeOf (w : Word) : Field6 := w.extractLsb' 26 6

/-- `instr[25:21]`. -/
def rsOf (w : Word) : RegIdx := w.extractLsb' 21 5

/-- `instr[20:16]`. -/
def rtOf (w : Word) : RegIdx := w.extractLsb' 16 5

/-- `instr[15:11]`. -/
def rdOf (w : Word) : RegIdx := w.extractLsb' 11 5

/-- `instr[10:6]`, ignored by every instruction (D10). -/
def shamtOf (w : Word) : RegIdx := w.extractLsb' 6 5

/-- `instr[5:0]`. -/
def functOf (w : Word) : Field6 := w.extractLsb' 0 6

/-- `instr[15:0]`. -/
def immOf (w : Word) : Imm16 := w.extractLsb' 0 16

/-- `instr[25:0]`. -/
def targetOf (w : Word) : Target26 := w.extractLsb' 0 26

/-! ## Opcode map (R105) and funct map (R106) -/

/-- `OP_RTYPE` (R105). -/
def opRtype : Field6 := 0x00#6

/-- `OP_J` (R105). -/
def opJ : Field6 := 0x02#6

/-- `OP_BEQ` (R105). -/
def opBeq : Field6 := 0x04#6

/-- `OP_LW` (R105). -/
def opLw : Field6 := 0x23#6

/-- `OP_SW` (R105). -/
def opSw : Field6 := 0x2B#6

/-- funct of ADD (R106). -/
def functAdd : Field6 := 0x20#6

/-- funct of SUBTRACT (R106). -/
def functSub : Field6 := 0x22#6

/-- funct of AND (R106). -/
def functAnd : Field6 := 0x24#6

/-- funct of OR (R106). -/
def functOr : Field6 := 0x25#6

/-- funct of SET-LESS-THAN (R106). -/
def functSlt : Field6 := 0x2A#6

/-! ## The decoder -/

/-- A register-type word, by its funct (R106, R300). -/
def decodeRtype (w : Word) : Instr :=
  if functOf w = functAdd then .add (rsOf w) (rtOf w) (rdOf w) (shamtOf w)
  else if functOf w = functSub then .sub (rsOf w) (rtOf w) (rdOf w) (shamtOf w)
  else if functOf w = functAnd then .and (rsOf w) (rtOf w) (rdOf w) (shamtOf w)
  else if functOf w = functOr then .or (rsOf w) (rtOf w) (rdOf w) (shamtOf w)
  else if functOf w = functSlt then .slt (rsOf w) (rtOf w) (rdOf w) (shamtOf w)
  else .rtypeUnmappedFunct (rsOf w) (rtOf w) (rdOf w) (shamtOf w) (functOf w)

/-- R110, R112: every 32-bit word decodes to exactly one instruction; nothing is refused. -/
def decode (w : Word) : Instr :=
  if opcodeOf w = opRtype then decodeRtype w
  else if opcodeOf w = opJ then .j (targetOf w)
  else if opcodeOf w = opBeq then .beq (rsOf w) (rtOf w) (immOf w)
  else if opcodeOf w = opLw then .lw (rsOf w) (rtOf w) (immOf w)
  else if opcodeOf w = opSw then .sw (rsOf w) (rtOf w) (immOf w)
  else .unmappedOpcode (opcodeOf w) (targetOf w)

/-! ## The encoder (R102, the matches of spec/opcode_table.json) -/

/-- R-type: `opcode 31:26 | rs 25:21 | rt 20:16 | rd 15:11 | shamt 10:6 | funct 5:0` (R102), with `OP_RTYPE`. -/
def rtypeWord (rs rt rd shamt : RegIdx) (funct : Field6) : Word :=
  opRtype ++ rs ++ rt ++ rd ++ shamt ++ funct

/-- I-type: `opcode 31:26 | rs 25:21 | rt 20:16 | imm 15:0` (R102). -/
def itypeWord (opcode : Field6) (rs rt : RegIdx) (imm : Imm16) : Word :=
  opcode ++ rs ++ rt ++ imm

/-- J-type: `opcode 31:26 | target 25:0` (R102). -/
def jtypeWord (opcode : Field6) (target : Target26) : Word :=
  opcode ++ target

/-- The word of an instruction. -/
def encode : Instr → Word
  | .add rs rt rd shamt => rtypeWord rs rt rd shamt functAdd
  | .sub rs rt rd shamt => rtypeWord rs rt rd shamt functSub
  | .and rs rt rd shamt => rtypeWord rs rt rd shamt functAnd
  | .or rs rt rd shamt => rtypeWord rs rt rd shamt functOr
  | .slt rs rt rd shamt => rtypeWord rs rt rd shamt functSlt
  | .lw rs rt imm => itypeWord opLw rs rt imm
  | .sw rs rt imm => itypeWord opSw rs rt imm
  | .beq rs rt imm => itypeWord opBeq rs rt imm
  | .j target => jtypeWord opJ target
  | .rtypeUnmappedFunct rs rt rd shamt funct => rtypeWord rs rt rd shamt funct
  | .unmappedOpcode opcode rest => jtypeWord opcode rest

/-! ## Bits handed over by number -/

/-- Why a run of bits is no instruction word of this hardware. -/
inductive DecodeRefusal where
  /-- More than the 32 bits of R100. Safe: the hardware has no such instruction. -/
  | widerThanAWord
deriving DecidableEq, Repr

/-- The 32-bit word whose low `nbits` bits are those of `w`, every bit above them 0 (R100: one instruction is one word,
handed over as one 32-bit value, R78). -/
def wordOfBits (nbits w : Nat) : Word := BitVec.ofNat 32 (w % 2 ^ nbits)

/-- Decoding of a run of bits: total, refusing by name what is wider than an instruction (R100). -/
def decodeBits (nbits w : Nat) : Except DecodeRefusal Instr :=
  if nbits ≤ 32 then .ok (decode (wordOfBits nbits w)) else .error .widerThanAWord

/-- The instruction the decoder reads from bits numbered as spec/opcode_table.json numbers them. -/
def decodeTableWord (nbits w : Nat) : Option Instr := (decodeBits nbits w).toOption

end Sys2Proof
end

