-- ==== Sys2Proof/Config.lean ====
section
/-! DEFINITION. The parameters of the machine (R9): the capacities of the two stores. The spec fixes a value for everything
else, and leaves no value free (R202, R320), so no constant without a body stands here. -/

namespace Sys2Proof

/-- `IMEM_WORDS` and `DMEM_BYTES` of R9, fixed for one machine. State carries them (log 3), so a statement about every state
is a statement about every capacity. -/
structure Config where
  /-- `IMEM_WORDS`: 32-bit words in the instruction store (R71). -/
  imemWords : Nat
  /-- `DMEM_BYTES`: bytes in the data store (R75). -/
  dmemBytes : Nat
deriving DecidableEq, Repr

/-- The values the spec takes: 512 words and 2048 bytes (R9). -/
def Config.standard : Config := { imemWords := 512, dmemBytes := 2048 }

/-- The capacities a 32-bit byte address can reach, with room for one data word (log 3). -/
def Config.valid (c : Config) : Bool :=
  decide (c.imemWords ≤ 2 ^ 30) && decide (4 ≤ c.dmemBytes) && decide (c.dmemBytes ≤ 2 ^ 32)

end Sys2Proof
end

