-- ==== Sys2Proof/Machine/State.lean ====
section
/-! DEFINITION. The state of the machine (R51): the program counter, both sides of the four pipeline registers (R41 to R45),
the three stores (R49), and, as plain data beside them, the `rst` input pin (R140) and the two capacities (R9). -/

namespace Sys2Proof.Machine

/-- One pipeline register: an input side, written by the upstream stage in a cycle, and an output side, read by the downstream
stage (R41). -/
structure Latch (α : Type) where
  /-- The input side (`P.in`). -/
  input : α
  /-- The output side (`P.out`). -/
  output : α
deriving DecidableEq, Repr

/-- The fields of IF/ID (R42). -/
structure IfId where
  instr : Word
deriving DecidableEq, Repr

/-- The fields of ID/EX (R43), in the rule's order. -/
structure IdEx where
  nextPc : Word
  regWrite : Bool
  memRead : Bool
  memWrite : Bool
  memToReg : Bool
  aluCtl : AluCode
  aluSrc : Bool
  regDest : Bool
  isBranch : Bool
  isJump : Bool
  rsIdx : RegIdx
  rtIdx : RegIdx
  rdIdx : RegIdx
  rsVal : Word
  rtVal : Word
  imm : Word
  instr : Word
deriving DecidableEq, Repr

/-- The fields of EX/MEM (R44). -/
structure ExMem where
  regWrite : Bool
  memRead : Bool
  memWrite : Bool
  memToReg : Bool
  aluResult : Word
  writeData : Word
  registerNum : RegIdx
  instr : Word
deriving DecidableEq, Repr

/-- The fields of MEM/WB (R45). -/
structure MemWb where
  regWrite : Bool
  registerNum : RegIdx
  regWrData : Word
  instr : Word
deriving DecidableEq, Repr

/-- The all-zero IF/ID record (R46). -/
def IfId.zero : IfId := { instr := 0#32 }

/-- The all-zero ID/EX record (R46). -/
def IdEx.zero : IdEx :=
  { nextPc := 0#32, regWrite := false, memRead := false, memWrite := false, memToReg := false, aluCtl := 0#4,
    aluSrc := false, regDest := false, isBranch := false, isJump := false, rsIdx := 0#5, rtIdx := 0#5, rdIdx := 0#5,
    rsVal := 0#32, rtVal := 0#32, imm := 0#32, instr := 0#32 }

/-- The all-zero EX/MEM record (R46). -/
def ExMem.zero : ExMem :=
  { regWrite := false, memRead := false, memWrite := false, memToReg := false, aluResult := 0#32, writeData := 0#32,
    registerNum := 0#5, instr := 0#32 }

/-- The all-zero MEM/WB record (R46). -/
def MemWb.zero : MemWb := { regWrite := false, registerNum := 0#5, regWrData := 0#32, instr := 0#32 }

/-- The data store: the bytes that are not what an unlisted address reads as, by rising address (R75; `Memory.wf`). -/
abbrev Memory := List Host.Cell

/-- The instruction store: the words that are not what an unlisted index reads as, by rising word index (R71). -/
abbrev InstrStore := List (Nat × Word)

/-- The register bank: 32 registers of 32 bits (R30). Entry 0 is never written and every read of index 0 answers 0 (R31,
R32). -/
abbrev Bank := Vector Word 32

/-- The whole machine (R51). -/
structure State where
  /-- The reset input pin, sampled at the clock edge (R140, R141; held here by log 2). -/
  rst : Bool
  /-- The capacities (R9; held here by log 3). -/
  cfg : Config
  /-- `PC` (R35). -/
  pc : Word
  /-- IF/ID (R42). -/
  ifid : Latch IfId
  /-- ID/EX (R43). -/
  idex : Latch IdEx
  /-- EX/MEM (R44). -/
  exmem : Latch ExMem
  /-- MEM/WB (R45). -/
  memwb : Latch MemWb
  /-- The register bank (R30). -/
  bank : Bank
  /-- The data store (R75). -/
  dmem : Memory
  /-- The instruction store (R71). -/
  imem : InstrStore
deriving DecidableEq, Repr

/-- Why the machine stops with a fault: never. R320: the hardware raises no exception, and 93_implementation_defined.md says
that no behaviour of the core is `stuck` or `fault`. The type is empty, so no step can fault (log 8). -/
inductive Fault where
deriving DecidableEq, Repr

/-- Why a step has no meaning. -/
inductive Refusal where
  /-- An arm of `exec` that has no meaning yet; raised by no arm of this model (log 8). Safe. -/
  | notModelled (mnemonic : String)
deriving DecidableEq, Repr

/-- The machine with both sides of every pipeline register and `PC` zero (R46, R360), the collaborators zero (R361), the
reset pin released (log 2), and the given capacities. -/
def State.construct (cfg : Config) : State :=
  { rst := false, cfg := cfg, pc := 0#32,
    ifid := { input := IfId.zero, output := IfId.zero },
    idex := { input := IdEx.zero, output := IdEx.zero },
    exmem := { input := ExMem.zero, output := ExMem.zero },
    memwb := { input := MemWb.zero, output := MemWb.zero },
    bank := Vector.replicate 32 0#32, dmem := [], imem := [] }

/-- The machine right after construction, with the capacities the spec takes (R9, R51). -/
def State.reset : State := State.construct Config.standard

end Sys2Proof.Machine
end

