-- ==== Sys2Proof/Machine/Ops.lean ====
section
/-! DEFINITION. The operations over the stores and the register bank (R13, 20_memory.md, R31, R32). The hardware takes no
exception (R320, R325, R326), so no operation for entering or leaving one stands here. -/

namespace Sys2Proof.Machine

/-! ## Sparse stores: what an unlisted address reads as, reading, writing, the canonical form -/

/-- What an address that no entry lists reads as: 0, the reset contents of both stores (R361). -/
def unlisted {w : Nat} : BitVec w := 0#w

/-- The value at one address of a store. -/
def storeRead {w : Nat} : List (Nat × BitVec w) → Nat → BitVec w
  | [], _ => unlisted
  | (b, u) :: rest, a => if a = b then u else storeRead rest a

/-- A store without its entry at one address. -/
def storeErase {w : Nat} (m : List (Nat × BitVec w)) (a : Nat) : List (Nat × BitVec w) := m.filter (fun c => c.1 != a)

/-- A store with an entry put in front of the first higher address. -/
def storeInsert {w : Nat} : List (Nat × BitVec w) → Nat → BitVec w → List (Nat × BitVec w)
  | [], a, v => [(a, v)]
  | (b, u) :: rest, a, v => if a < b then (a, v) :: (b, u) :: rest else (b, u) :: storeInsert rest a v

/-- Write one value, keeping the addresses rising and no entry equal to the unlisted value. -/
def storeWrite {w : Nat} (m : List (Nat × BitVec w)) (a : Nat) (v : BitVec w) : List (Nat × BitVec w) :=
  if v = unlisted then storeErase m a else storeInsert (storeErase m a) a v

/-- Addresses strictly rising from `lo` on, all below `bound`, and no entry equal to the unlisted value. -/
def storeFrom {w : Nat} (bound lo : Nat) : List (Nat × BitVec w) → Bool
  | [] => true
  | (a, v) :: rest => decide (lo ≤ a) && decide (a < bound) && decide (v ≠ unlisted) && storeFrom bound (a + 1) rest

/-- The data store's canonical form: rising addresses inside the capacity, no entry that an unlisted address would give. -/
def Memory.wf (c : Config) (m : Memory) : Bool := storeFrom c.dmemBytes 0 m

/-- The instruction store's canonical form: rising word indices inside the capacity, no zero word listed. -/
def InstrStore.wf (c : Config) (m : InstrStore) : Bool := storeFrom c.imemWords 0 m

/-! ## Instruction store (R71 to R74) -/

/-- The word index `addr[31:2]` of a byte address (R71). -/
def wordIndex (addr : Word) : Nat := addr.toNat / 4

/-- `IMemRead(addr)` (R72): the addressed word, or 0 outside the store. -/
def imemRead (c : Config) (m : InstrStore) (addr : Word) : Word :=
  if wordIndex addr < c.imemWords then storeRead m (wordIndex addr) else 0#32

/-- `IMemWrite(addr, value)` (R73): ignored outside the store. -/
def imemWrite (c : Config) (m : InstrStore) (addr value : Word) : InstrStore :=
  if wordIndex addr < c.imemWords then storeWrite m (wordIndex addr) value else m

/-! ## Data store (R75 to R81) -/

/-- A word access at `addr` is in range iff `addr <= DMEM_BYTES - 4`, unsigned and without wrap (R76, R77, D9). -/
def dataInRange (c : Config) (addr : Word) : Bool := decide (addr.toNat + 4 ≤ c.dmemBytes)

/-- The byte `dmem[a]`. -/
def byteAt (m : Memory) (a : Nat) : Byte := storeRead m a

/-- The four bytes at `a`, little-endian: byte `a + k` is bits `8k+7 .. 8k` (R76, R78). -/
def wordAt (m : Memory) (a : Nat) : Word :=
  byteAt m (a + 3) ++ byteAt m (a + 2) ++ byteAt m (a + 1) ++ byteAt m a

/-- Byte `k` of a word: bits `8k+7 .. 8k` (R78). -/
def byteOf (v : Word) (k : Nat) : Byte := v.extractLsb' (8 * k) 8

/-- The four byte writes of R77. -/
def putWordAt (m : Memory) (a : Nat) (v : Word) : Memory :=
  storeWrite (storeWrite (storeWrite (storeWrite m a (byteOf v 0)) (a + 1) (byteOf v 1)) (a + 2) (byteOf v 2)) (a + 3)
    (byteOf v 3)

/-- `MemRead(addr, 4, en)` (R76): 0 when not enabled or out of range, else the little-endian word, at any alignment (R80). -/
def memRead (c : Config) (m : Memory) (addr : Word) (en : Bool) : Word :=
  if en && dataInRange c addr then wordAt m addr.toNat else 0#32

/-- `MemWrite(addr, 4, value, en)` (R77): nothing when not enabled or out of range. -/
def memWrite (c : Config) (m : Memory) (addr value : Word) (en : Bool) : Memory :=
  if en && dataInRange c addr then putWordAt m addr.toNat value else m

/-! ## Register bank (R30 to R32) -/

/-- `x[i]`: a read port (R31). -/
def bankRead (b : Bank) (i : RegIdx) : Word := if i = 0#5 then 0#32 else b[i.toNat]'i.isLt

/-- The write port (R32): a write to index 0 is discarded. -/
def bankWrite (b : Bank) (i : RegIdx) (v : Word) (en : Bool) : Bank :=
  if en = true ∧ i ≠ 0#5 then b.set i.toNat v i.isLt else b

end Sys2Proof.Machine
end

