-- ==== Sys2Proof/Machine/Control.lean ====
section
/-! DEFINITION. The decode tables: ALU classes (R107), ALU control codes (R108), control signals (R109). -/

namespace Sys2Proof.Machine

/-! ## ALU control codes (R108) -/

/-- `ALU_AND`. -/
def aluAnd : AluCode := 0x0#4

/-- `ALU_OR`. -/
def aluOr : AluCode := 0x1#4

/-- `ALU_ADD`. -/
def aluAdd : AluCode := 0x2#4

/-- `ALU_SUB`. -/
def aluSub : AluCode := 0x6#4

/-- `ALU_SLT`. -/
def aluSlt : AluCode := 0x7#4

/-- `ALU_NOR`; no decode produces it (R230). -/
def aluNor : AluCode := 0xC#4

/-- `ALU_INVALID`: no defined operation. -/
def aluInvalid : AluCode := 0xF#4

/-- The ALU-operation classes of R107. -/
inductive AluClass where
  | loadStore
  | branch
  | rtype
  | invalid
deriving DecidableEq, Repr

/-- R107: the class, from the opcode alone. -/
def aluClassOf (opcode : Field6) : AluClass :=
  if opcode = opLw then .loadStore
  else if opcode = opSw then .loadStore
  else if opcode = opBeq then .branch
  else if opcode = opRtype then .rtype
  else .invalid

/-- R106: the ALU control of a register-type word, by its funct. -/
def rtypeAluControl (funct : Field6) : AluCode :=
  if funct = functAdd then aluAdd
  else if funct = functSub then aluSub
  else if funct = functAnd then aluAnd
  else if funct = functOr then aluOr
  else if funct = functSlt then aluSlt
  else aluInvalid

/-- R108: the ALU control, from the class and the funct. -/
def aluControlOf (cls : AluClass) (funct : Field6) : AluCode :=
  match cls with
  | .loadStore => aluAdd
  | .branch => aluSub
  | .rtype => rtypeAluControl funct
  | .invalid => aluInvalid

/-! ## Control signals (R109) -/

/-- The eight control signals, in the order of R109's columns. -/
structure Control where
  aluSrc : Bool
  regDest : Bool
  isBranch : Bool
  isJump : Bool
  memRead : Bool
  memWrite : Bool
  memToReg : Bool
  regWrite : Bool
deriving DecidableEq, Repr

/-- R109, any other opcode: every signal 0. -/
def Control.none : Control :=
  { aluSrc := false, regDest := false, isBranch := false, isJump := false, memRead := false, memWrite := false,
    memToReg := false, regWrite := false }

/-- R109, row `OP_RTYPE`. -/
def Control.rtype : Control := { Control.none with regDest := true, regWrite := true }

/-- R109, row `OP_LW`. -/
def Control.lw : Control := { Control.none with aluSrc := true, memRead := true, memToReg := true, regWrite := true }

/-- R109, row `OP_SW`. -/
def Control.sw : Control := { Control.none with aluSrc := true, memWrite := true }

/-- R109, row `OP_BEQ`. -/
def Control.beq : Control := { Control.none with isBranch := true }

/-- R109, row `OP_J`. -/
def Control.jump : Control := { Control.none with isJump := true }

/-- R109: the control signals, from the opcode alone. -/
def controlOf (opcode : Field6) : Control :=
  if opcode = opRtype then Control.rtype
  else if opcode = opLw then Control.lw
  else if opcode = opSw then Control.sw
  else if opcode = opBeq then Control.beq
  else if opcode = opJ then Control.jump
  else Control.none

/-- What steps 2 to 4 of the decode stage give for one word (R161 to R163), with the word. -/
structure Decoded where
  instr : Word
  aluCtl : AluCode
  ctl : Control
deriving DecidableEq, Repr

/-- Steps 2 to 4 of the decode stage read off the tables (R107 to R109). -/
def decodeByTables (w : Word) : Decoded :=
  { instr := w, aluCtl := aluControlOf (aluClassOf (opcodeOf w)) (functOf w), ctl := controlOf (opcodeOf w) }

end Sys2Proof.Machine
end

