-- ==== Sys2Proof/Machine/Alu.lean ====
section
/-! DEFINITION. The ALU (R220, R221). -/

namespace Sys2Proof.Machine

/-- SET-LESS-THAN: 1 if `a` is below `b` as unsigned integers, else 0 (R220, R221). -/
def setLessThan (a b : Word) : Word := if a.toNat < b.toNat then 1#32 else 0#32

/-- `ALU(aluCtl, a, b)` (R220): arithmetic modulo 2^32, no flags, 0 for every code that names no operation. -/
def alu (ctl : AluCode) (a b : Word) : Word :=
  if ctl = aluAnd then a &&& b
  else if ctl = aluOr then a ||| b
  else if ctl = aluAdd then a + b
  else if ctl = aluSub then a - b
  else if ctl = aluSlt then setLessThan a b
  else if ctl = aluNor then ~~~(a ||| b)
  else 0#32

end Sys2Proof.Machine
end

