-- ==== Sys2Proof/Machine/Operands.lean ====
section
/-! DEFINITION. Every operand form (R115): the immediate and the two target addresses (R103, R104, R166), the register reads
of decode (R164, R196), and the forwarded operands and muxes of execute (R170 to R174). -/

namespace Sys2Proof.Machine

/-! ## Immediates and targets -/

/-- `sext_32(instr[15:0])` (R103). -/
def sextImm (imm : Imm16) : Word := imm.signExtend 32

/-- `branchAddr = pc + 4 + (imm << 2)`, modulo 2^32 (R166). -/
def branchAddr (pc imm : Word) : Word := pc + 4#32 + imm <<< 2

/-- `jumpAddr = ((pc + 4) & 0xF0000000) | (zext_32(target) << 2)` (R104, R166). -/
def jumpAddr (pc : Word) (target : Target26) : Word :=
  ((pc + 4#32) &&& 0xF0000000#32) ||| (target.setWidth 32 <<< 2)

/-- The program-counter mux (R166): a jump overrides a taken branch (R287). -/
def nextPcMux (pc imm : Word) (target : Target26) (isBranch equal isJump : Bool) : Word :=
  if isJump = true then jumpAddr pc target
  else if isBranch = true ∧ equal = true then branchAddr pc imm
  else pc + 4#32

/-! ## Register reads of the decode stage -/

/-- The register bank after the write-back stage's write of this cycle (R190). -/
def State.bankAfterWriteBack (s : State) : Bank :=
  bankWrite s.bank s.memwb.output.registerNum s.memwb.output.regWrData s.memwb.output.regWrite

/-- `x[i]` as the decode stage reads it: after the write of the same cycle (R164, R196). -/
def State.decodeRead (s : State) (i : RegIdx) : Word := bankRead s.bankAfterWriteBack i

/-- The same read port as hardware, with the write data bypassed to it (the formula of R196). -/
def State.readPort (s : State) (i : RegIdx) : Word :=
  if i = 0#5 then 0#32
  else if s.memwb.output.regWrite = true ∧ s.memwb.output.registerNum = i then s.memwb.output.regWrData
  else s.bank[i.toNat]'i.isLt

/-! ## Forwarding taps and muxes of the execute stage -/

/-- The EX/MEM tap matches register `i` (R165, R170): index 0 is never a forwarding target. -/
def State.exmemTap (s : State) (i : RegIdx) : Bool :=
  s.exmem.output.regWrite && decide (s.exmem.output.registerNum = i) && decide (i ≠ 0#5)

/-- The MEM/WB tap matches register `i` (R170). -/
def State.memwbTap (s : State) (i : RegIdx) : Bool :=
  s.memwb.output.regWrite && decide (s.memwb.output.registerNum = i) && decide (i ≠ 0#5)

/-- The forwarding unit for one source register with its latched value: EX/MEM before MEM/WB (R170, R171, R176). -/
def State.forward (s : State) (i : RegIdx) (latched : Word) : Word :=
  if s.exmemTap i = true then s.exmem.output.aluResult
  else if s.memwbTap i = true then s.memwb.output.regWrData
  else latched

/-- `opA` (R170). -/
def State.opA (s : State) : Word := s.forward s.idex.output.rsIdx s.idex.output.rsVal

/-- `fwdB` (R171). -/
def State.fwdB (s : State) : Word := s.forward s.idex.output.rtIdx s.idex.output.rtVal

/-- `opB`, the operand 2 mux (R172). -/
def State.opB (s : State) : Word := if s.idex.output.aluSrc = true then s.idex.output.imm else s.fwdB

/-- `dest`, the destination mux (R174). -/
def State.dest (s : State) : RegIdx :=
  if s.idex.output.regDest = true then s.idex.output.rdIdx else s.idex.output.rtIdx

end Sys2Proof.Machine
end

