-- ==== Sys2Proof/Machine/Flags.lean ====
section
/-! DEFINITION. The hardware has no flags (R39, R173). The one condition it computes is the equality unit's, in decode
(R165), and it is stored nowhere. -/

namespace Sys2Proof.Machine

/-- One input of the equality unit: the register read, unless the instruction in EX/MEM writes that register, when it is that
instruction's ALU result (R165). -/
def State.eqInput (s : State) (i : RegIdx) : Word :=
  if s.exmemTap i = true then s.exmem.output.aluResult else s.decodeRead i

/-- `equal`: all 32 bits of `eqA` and `eqB` agree (R165). -/
def State.equal (s : State) (rs rt : RegIdx) : Bool := decide (s.eqInput rs = s.eqInput rt)

end Sys2Proof.Machine
end

