-- ==== Sys2Proof/Machine/Stages.lean ====
section
/-! DEFINITION. The five stages (40_pipeline_engine.md, sections 3 to 7) and the clock edge (section 9). Every stage reads
output sides only (R152). -/

namespace Sys2Proof.Machine

/-- Fetch (R155): the word at ID/EX's next address. -/
def State.fetchStage (s : State) : IfId := { instr := imemRead s.cfg s.imem s.idex.output.nextPc }

/-- The next address the decode stage selects (R166); its `pc` is ID/EX's next address. -/
def State.selectedPc (s : State) (d : Decoded) : Word :=
  nextPcMux s.idex.output.nextPc (sextImm (immOf d.instr)) (targetOf d.instr) d.ctl.isBranch
    (s.equal (rsOf d.instr) (rtOf d.instr)) d.ctl.isJump

/-- Decode (R160 to R167): fields, register reads, next address and control signals into ID/EX. -/
def State.decodeStage (s : State) (d : Decoded) : IdEx :=
  { nextPc := s.selectedPc d
    regWrite := d.ctl.regWrite
    memRead := d.ctl.memRead
    memWrite := d.ctl.memWrite
    memToReg := d.ctl.memToReg
    aluCtl := d.aluCtl
    aluSrc := d.ctl.aluSrc
    regDest := d.ctl.regDest
    isBranch := d.ctl.isBranch
    isJump := d.ctl.isJump
    rsIdx := rsOf d.instr
    rtIdx := rtOf d.instr
    rdIdx := rdOf d.instr
    rsVal := s.decodeRead (rsOf d.instr)
    rtVal := s.decodeRead (rtOf d.instr)
    imm := sextImm (immOf d.instr)
    instr := d.instr }

/-- `aluResult` of the execute stage (R173). -/
def State.aluResult (s : State) : Word := alu s.idex.output.aluCtl s.opA s.opB

/-- Execute (R170 to R175): the ALU result, the forwarded `rt` value, the destination index into EX/MEM. -/
def State.executeStage (s : State) : ExMem :=
  { regWrite := s.idex.output.regWrite
    memRead := s.idex.output.memRead
    memWrite := s.idex.output.memWrite
    memToReg := s.idex.output.memToReg
    aluResult := s.aluResult
    writeData := s.fwdB
    registerNum := s.dest
    instr := s.idex.output.instr }

/-- `wbValue` (R180, R182): the word read, before this cycle's write (R90), or the ALU result. -/
def State.wbValue (s : State) : Word :=
  if s.exmem.output.memToReg = true then memRead s.cfg s.dmem s.exmem.output.aluResult s.exmem.output.memRead
  else s.exmem.output.aluResult

/-- Memory (R180 to R183): the write-back value into MEM/WB. -/
def State.memoryStage (s : State) : MemWb :=
  { regWrite := s.exmem.output.regWrite
    registerNum := s.exmem.output.registerNum
    regWrData := s.wbValue
    instr := s.exmem.output.instr }

/-- The data store after the memory stage's write of this cycle (R181, R197). -/
def State.dmemAfterMemory (s : State) : Memory :=
  memWrite s.cfg s.dmem s.exmem.output.aluResult s.exmem.output.writeData s.exmem.output.memWrite

/-- A pipeline register at the edge: the input side is copied into the output side and keeps its value (R150). -/
def latched {α : Type} (v : α) : Latch α := { input := v, output := v }

/-- One cycle with its clock edge, `rst = 0`, for the decoded word `d` in the decode stage (R195, R200, R201): every stage
reads the state before the edge, and everything lands at once. -/
def State.cycle (s : State) (d : Decoded) : State :=
  { rst := s.rst
    cfg := s.cfg
    pc := s.selectedPc d
    ifid := latched s.fetchStage
    idex := latched (s.decodeStage d)
    exmem := latched s.executeStage
    memwb := latched s.memoryStage
    bank := s.bankAfterWriteBack
    dmem := s.dmemAfterMemory
    imem := s.imem }

/-- The clock edge with `rst = 1` (R141): `PC` and every field of both sides of every pipeline register become 0, and the
collaborators are not written. -/
def State.resetEdge (s : State) : State :=
  { s with
    pc := 0#32
    ifid := latched IfId.zero
    idex := latched IdEx.zero
    exmem := latched ExMem.zero
    memwb := latched MemWb.zero }

/-- Put a word where the decode stage takes the instruction this cycle runs: IF/ID's output side, as the fetch stage leaves
it (R155, R160), with the reset pin released (log 1). -/
def State.placeWord (s : State) (w : Word) : State :=
  { s with rst := false, ifid := { input := s.ifid.input, output := { instr := w } } }

end Sys2Proof.Machine
end

