-- ==== Sys2Proof/Machine/LoadStore.lean ====
section
/-! DEFINITION. LW and SW (42_load_store.md): base plus sign-extended displacement is their only addressing mode (R260). The
address is computed by execute in the step after the meaning's, the data store is accessed in the one after that (R263). -/

namespace Sys2Proof.Machine

/-- LW (R261): `ALU_ADD` on the immediate, read from memory, written to `rt`. -/
def execLw (rs rt : RegIdx) (imm : Imm16) (s : State) : Host.Outcome State Fault Refusal :=
  .next (s.cycle { instr := encode (.lw rs rt imm), aluCtl := aluAdd, ctl := Control.lw })

/-- SW (R262): `ALU_ADD` on the immediate, the forwarded `rt` value written to memory, no register written. -/
def execSw (rs rt : RegIdx) (imm : Imm16) (s : State) : Host.Outcome State Fault Refusal :=
  .next (s.cycle { instr := encode (.sw rs rt imm), aluCtl := aluAdd, ctl := Control.sw })

end Sys2Proof.Machine
end

