-- ==== Sys2Proof/Machine/RType.lean ====
section
/-! DEFINITION. The register-type instructions (41_alu_rtype.md). A meaning is the cycle in which the instruction is in the
decode stage (log 1): it gives the decode stage the ALU code and the control signals of its rule, which its later stages obey
(R222): execute in the next step computes the result, memory passes it on, write-back writes `x[rd]`. -/

namespace Sys2Proof.Machine

/-- ADD (R225): `aluCtl = ALU_ADD`, control row `OP_RTYPE`. -/
def execAdd (rs rt rd shamt : RegIdx) (s : State) : Host.Outcome State Fault Refusal :=
  .next (s.cycle { instr := encode (.add rs rt rd shamt), aluCtl := aluAdd, ctl := Control.rtype })

/-- SUB (R226): `aluCtl = ALU_SUB`, control row `OP_RTYPE`. -/
def execSub (rs rt rd shamt : RegIdx) (s : State) : Host.Outcome State Fault Refusal :=
  .next (s.cycle { instr := encode (.sub rs rt rd shamt), aluCtl := aluSub, ctl := Control.rtype })

/-- AND (R227): `aluCtl = ALU_AND`, control row `OP_RTYPE`. -/
def execAnd (rs rt rd shamt : RegIdx) (s : State) : Host.Outcome State Fault Refusal :=
  .next (s.cycle { instr := encode (.and rs rt rd shamt), aluCtl := aluAnd, ctl := Control.rtype })

/-- OR (R228): `aluCtl = ALU_OR`, control row `OP_RTYPE`. -/
def execOr (rs rt rd shamt : RegIdx) (s : State) : Host.Outcome State Fault Refusal :=
  .next (s.cycle { instr := encode (.or rs rt rd shamt), aluCtl := aluOr, ctl := Control.rtype })

/-- SLT (R229), unsigned: `aluCtl = ALU_SLT`, control row `OP_RTYPE`. -/
def execSlt (rs rt rd shamt : RegIdx) (s : State) : Host.Outcome State Fault Refusal :=
  .next (s.cycle { instr := encode (.slt rs rt rd shamt), aluCtl := aluSlt, ctl := Control.rtype })

end Sys2Proof.Machine
end

