-- ==== Sys2Proof/Machine/Transfer.lean ====
section
/-! DEFINITION. BEQ and J (43_control_transfer.md): both act in the decode stage, through the equality unit and the
program-counter mux of `State.selectedPc` (R165, R166), and do nothing in the later stages. The word fetched in the same cycle
is the delay slot and is never cancelled (R284). -/

namespace Sys2Proof.Machine

/-- BEQ (R280): `isBranch`, and `ALU_SUB` in execute, whose result nothing reads. -/
def execBeq (rs rt : RegIdx) (imm : Imm16) (s : State) : Host.Outcome State Fault Refusal :=
  .next (s.cycle { instr := encode (.beq rs rt imm), aluCtl := aluSub, ctl := Control.beq })

/-- J (R281): `isJump`; the ALU class is invalid (R107), so execute computes 0, which nothing reads. -/
def execJ (target : Target26) (s : State) : Host.Outcome State Fault Refusal :=
  .next (s.cycle { instr := encode (.j target), aluCtl := aluInvalid, ctl := Control.jump })

end Sys2Proof.Machine
end

