-- ==== Sys2Proof/Machine/Unmapped.lean ====
section
/-! DEFINITION. The words that are none of the nine instructions (44_unmapped.md). None of them faults. -/

namespace Sys2Proof.Machine

/-- A register-type word with an unmapped funct (R300, C5): `ALU_INVALID` gives 0 and the control row is `OP_RTYPE`'s, so it
writes 0 to `rd`. With `rd = 0` it has no architectural effect; the all-zero word is the NOP (R302). -/
def execRtypeUnmappedFunct (rs rt rd shamt : RegIdx) (funct : Field6) (s : State) : Host.Outcome State Fault Refusal :=
  .next (s.cycle
    { instr := encode (.rtypeUnmappedFunct rs rt rd shamt funct), aluCtl := aluInvalid, ctl := Control.rtype })

/-- A word with an unmapped opcode (R301): every control signal 0, no architectural effect. -/
def execUnmappedOpcode (opcode : Field6) (rest : BitVec 26) (s : State) : Host.Outcome State Fault Refusal :=
  .next (s.cycle { instr := encode (.unmappedOpcode opcode rest), aluCtl := aluInvalid, ctl := Control.none })

end Sys2Proof.Machine
end

