-- ==== Sys2Proof/Machine/Step.lean ====
section
/-! DEFINITION. One step: one rising clock edge and the combinational evaluation before it (R1, R195, R200). The instruction
a step runs is the word in IF/ID's output side, the one the decode stage takes (R160). -/

namespace Sys2Proof.Machine

/-- One clock edge: the reset edge when the pin is set (R141), else the cycle with the word of IF/ID in decode (R202). -/
def step (s : State) : Host.Outcome State Fault Refusal :=
  if s.rst = true then .next s.resetEdge else exec (decode s.ifid.output.instr) s

/-- The state whose very next step takes the given bits as its instruction (log 1). -/
def State.withFetchWord (s : State) (nbits w : Nat) : State := s.placeWord (wordOfBits nbits w)

end Sys2Proof.Machine
end

