-- ==== Sys2Proof/Machine/Datapath.lean ====
section
/-! DEFINITION. The second form of the cycle: `step(S)` of R202, transcribed flat from the rule, with the decode tables of
R107 to R109 read off the raw word and no `Instr` in between. `Machine.step` does not call it; statements compare the two. -/

namespace Sys2Proof.Machine

/-- `step(S)` of R202. The input sides, which the rule leaves out of `S`, keep the values just computed (R150, log 4). -/
def State.datapathCycle (s : State) : State :=
  let d := s.idex.output
  let e := s.exmem.output
  let m := s.memwb.output
  let w := s.ifid.output.instr
  -- write-back, visible to decode reads
  let bank1 : Bank := if m.regWrite = true ∧ m.registerNum ≠ 0#5 then s.bank.set m.registerNum.toNat m.regWrData m.registerNum.isLt
    else s.bank
  let rd : RegIdx → Word := fun i => if i = 0#5 then 0#32 else bank1[i.toNat]'i.isLt
  -- fetch
  let fetched : Word := if d.nextPc.toNat / 4 < s.cfg.imemWords then storeRead s.imem (d.nextPc.toNat / 4) else 0#32
  -- decode
  let dec := decodeByTables w
  let tapE : RegIdx → Bool := fun i => e.regWrite && decide (e.registerNum = i) && decide (i ≠ 0#5)
  let eqA := if tapE (rsOf w) = true then e.aluResult else rd (rsOf w)
  let eqB := if tapE (rtOf w) = true then e.aluResult else rd (rtOf w)
  let immW : Word := (immOf w).signExtend 32
  let pcPlus4 := d.nextPc + 4#32
  let np := if dec.ctl.isBranch = true ∧ eqA = eqB then pcPlus4 + immW <<< 2 else pcPlus4
  let nextPc := if dec.ctl.isJump = true then (pcPlus4 &&& 0xF0000000#32) ||| ((targetOf w).setWidth 32 <<< 2) else np
  let idexIn : IdEx :=
    { nextPc := nextPc, regWrite := dec.ctl.regWrite, memRead := dec.ctl.memRead, memWrite := dec.ctl.memWrite,
      memToReg := dec.ctl.memToReg, aluCtl := dec.aluCtl, aluSrc := dec.ctl.aluSrc, regDest := dec.ctl.regDest,
      isBranch := dec.ctl.isBranch, isJump := dec.ctl.isJump, rsIdx := rsOf w, rtIdx := rtOf w, rdIdx := rdOf w,
      rsVal := rd (rsOf w), rtVal := rd (rtOf w), imm := immW, instr := w }
  -- execute
  let tapM : RegIdx → Bool := fun i => m.regWrite && decide (m.registerNum = i) && decide (i ≠ 0#5)
  let opA := if tapE d.rsIdx = true then e.aluResult else if tapM d.rsIdx = true then m.regWrData else d.rsVal
  let fwdB := if tapE d.rtIdx = true then e.aluResult else if tapM d.rtIdx = true then m.regWrData else d.rtVal
  let opB := if d.aluSrc = true then d.imm else fwdB
  let dest := if d.regDest = true then d.rdIdx else d.rtIdx
  let exmemIn : ExMem :=
    { regWrite := d.regWrite, memRead := d.memRead, memWrite := d.memWrite, memToReg := d.memToReg,
      aluResult := alu d.aluCtl opA opB, writeData := fwdB, registerNum := dest, instr := d.instr }
  -- memory
  let readData := memRead s.cfg s.dmem e.aluResult e.memRead
  let dmem1 := memWrite s.cfg s.dmem e.aluResult e.writeData e.memWrite
  let memwbIn : MemWb :=
    { regWrite := e.regWrite, registerNum := e.registerNum,
      regWrData := if e.memToReg = true then readData else e.aluResult, instr := e.instr }
  -- edge
  { rst := s.rst, cfg := s.cfg, pc := nextPc,
    ifid := { input := { instr := fetched }, output := { instr := fetched } },
    idex := { input := idexIn, output := idexIn },
    exmem := { input := exmemIn, output := exmemIn },
    memwb := { input := memwbIn, output := memwbIn },
    bank := bank1, dmem := dmem1, imem := s.imem }

end Sys2Proof.Machine
end

