-- ==== Sys2Proof/Machine/HostPort.lean ====
section
/-! DEFINITION. The machine's outside (40_pipeline_engine.md section 1, 70_reset_and_hazards.md section 2): what the host does
before the first cycle (R366, R368), the ports (R140) and the observation after the last cycle (R371). No step calls anything
here. The run itself is `Host.Core.run Sys2Proof.core N_CYCLES` (R372). -/

namespace Sys2Proof.Machine

/-! ## Boot -/

/-- What the host may do between construction and the first cycle (R366, R370). -/
inductive HostAction where
  /-- `IMemWrite(addr, word)` (R73, R367). -/
  | loadWord (addr word : Word)
  /-- `x[i] <- v`; index 0 is discarded (R32). -/
  | setRegister (i : RegIdx) (v : Word)
  /-- One data-store byte; ignored outside the store (log 9). -/
  | setByte (addr : Word) (v : Byte)
  /-- One data-store word (R77). -/
  | setWord (addr v : Word)
deriving DecidableEq, Repr

/-- The effect of one host action (R366). -/
def State.hostAct (s : State) (a : HostAction) : State :=
  match a with
  | .loadWord addr word => { s with imem := imemWrite s.cfg s.imem addr word }
  | .setRegister i v => { s with bank := bankWrite s.bank i v true }
  | .setByte addr v =>
    { s with dmem := if addr.toNat < s.cfg.dmemBytes then storeWrite s.dmem addr.toNat v else s.dmem }
  | .setWord addr v => { s with dmem := memWrite s.cfg s.dmem addr v true }

/-- Construction, then the host's actions in order (R368). -/
def State.boot (cfg : Config) (actions : List HostAction) : State := actions.foldl State.hostAct (State.construct cfg)

/-! ## Ports (R140) -/

/-- The values on the ports during a cycle, in the rule's order; `clk` is the step itself. -/
structure Ports where
  rst : Bool
  imemAddr : Word
  imemRdata : Word
  rfRaddr1 : RegIdx
  rfRaddr2 : RegIdx
  rfRdata1 : Word
  rfRdata2 : Word
  rfWe : Bool
  rfWaddr : RegIdx
  rfWdata : Word
  dmemAddr : Word
  dmemRe : Bool
  dmemWe : Bool
  dmemWdata : Word
  dmemRdata : Word
  pc : Word
  ifidInstr : Word
  idexInstr : Word
  exmemInstr : Word
  memwbInstr : Word
deriving DecidableEq, Repr

/-- The ports of a state: every output is a function of the output sides and `PC` (R140). -/
def State.ports (s : State) : Ports :=
  { rst := s.rst
    imemAddr := s.idex.output.nextPc
    imemRdata := imemRead s.cfg s.imem s.idex.output.nextPc
    rfRaddr1 := rsOf s.ifid.output.instr
    rfRaddr2 := rtOf s.ifid.output.instr
    rfRdata1 := s.readPort (rsOf s.ifid.output.instr)
    rfRdata2 := s.readPort (rtOf s.ifid.output.instr)
    rfWe := s.memwb.output.regWrite
    rfWaddr := s.memwb.output.registerNum
    rfWdata := s.memwb.output.regWrData
    dmemAddr := s.exmem.output.aluResult
    dmemRe := s.exmem.output.memRead
    dmemWe := s.exmem.output.memWrite
    dmemWdata := s.exmem.output.writeData
    dmemRdata := memRead s.cfg s.dmem s.exmem.output.aluResult s.exmem.output.memRead
    pc := s.pc
    ifidInstr := s.ifid.output.instr
    idexInstr := s.idex.output.instr
    exmemInstr := s.exmem.output.instr
    memwbInstr := s.memwb.output.instr }

/-! ## Observation (R371) -/

/-- What the host sees after the last cycle: `PC`, one word per stage, the registers, the data-store bytes (R371, C6). -/
structure Observation where
  pc : Word
  fetchWord : Word
  ifidInstr : Word
  idexInstr : Word
  exmemInstr : Word
  memwbInstr : Word
  registers : List Word
  dataBytes : List Byte
deriving DecidableEq, Repr

/-- The observation of a state (R371). -/
def State.observe (s : State) : Observation :=
  { pc := s.pc
    fetchWord := imemRead s.cfg s.imem s.pc
    ifidInstr := s.ifid.output.instr
    idexInstr := s.idex.output.instr
    exmemInstr := s.exmem.output.instr
    memwbInstr := s.memwb.output.instr
    registers := (List.range 32).map (fun i => bankRead s.bank (BitVec.ofNat 5 i))
    dataBytes := (List.range s.cfg.dmemBytes).map (byteAt s.dmem) }

end Sys2Proof.Machine
end

