-- ==== Sys2Proof/Machine/Sequential.lean ====
section
/-! DEFINITION. The non-pipelined reading of the instructions, for statements about forwarding: R192 calls a value correct
when it is "the value a non-pipelined execution would use". Here is that execution's effect on the registers and the data
store, from the pseudocode of R225 to R229, R261, R262, R300 and R301. `Machine.step` calls nothing here. -/

namespace Sys2Proof.Machine

/-- What an instruction can change for good besides the program counter: the registers and the data store. -/
structure Arch where
  bank : Bank
  dmem : Memory
deriving DecidableEq, Repr

/-- A register-type result: `x[rd] <- f x[rs] x[rt]` (R222). -/
def Arch.putResult (a : Arch) (f : Word → Word → Word) (rs rt rd : RegIdx) : Arch :=
  { a with bank := bankWrite a.bank rd (f (bankRead a.bank rs) (bankRead a.bank rt)) true }

/-- The effective address from the registers (R260). -/
def Arch.address (a : Arch) (rs : RegIdx) (imm : Imm16) : Word := bankRead a.bank rs + sextImm imm

/-- One instruction executed alone, without a pipeline. -/
def Arch.run (c : Config) (a : Arch) (i : Instr) : Arch :=
  match i with
  | .add rs rt rd _ => a.putResult (· + ·) rs rt rd
  | .sub rs rt rd _ => a.putResult (· - ·) rs rt rd
  | .and rs rt rd _ => a.putResult (· &&& ·) rs rt rd
  | .or rs rt rd _ => a.putResult (· ||| ·) rs rt rd
  | .slt rs rt rd _ => a.putResult setLessThan rs rt rd
  | .lw rs rt imm => { a with bank := bankWrite a.bank rt (memRead c a.dmem (a.address rs imm) true) true }
  | .sw rs rt imm => { a with dmem := memWrite c a.dmem (a.address rs imm) (bankRead a.bank rt) true }
  | .beq _ _ _ => a
  | .j _ => a
  | .rtypeUnmappedFunct _ _ rd _ _ => { a with bank := bankWrite a.bank rd 0#32 true }
  | .unmappedOpcode _ _ => a

/-- The registers an instruction reads in the execute stage for an effect on the registers or the data store. -/
def executeSources : Instr → List RegIdx
  | .add rs rt _ _ => [rs, rt]
  | .sub rs rt _ _ => [rs, rt]
  | .and rs rt _ _ => [rs, rt]
  | .or rs rt _ _ => [rs, rt]
  | .slt rs rt _ _ => [rs, rt]
  | .lw rs _ _ => [rs]
  | .sw rs rt _ => [rs, rt]
  | .beq _ _ _ => []
  | .j _ => []
  | .rtypeUnmappedFunct _ _ _ _ _ => []
  | .unmappedOpcode _ _ => []

end Sys2Proof.Machine
end

