-- ==== Sys2Proof/Safety.lean ====
section
/-! DEFINITION. What a safe run is, and the invariant of the machine, in the terms the statements use. -/

namespace Sys2Proof.Machine

/-- A run of `n` clock edges completes: no fault, no refusal (R320, R372). -/
def RunsSafely (n : Nat) (s : State) : Prop := ∃ t, Host.Core.run Sys2Proof.core n s = .next t

/-- The stores are in canonical form, inside their capacities. -/
abbrev State.StoresWf (s : State) : Prop := Memory.wf s.cfg s.dmem = true ∧ InstrStore.wf s.cfg s.imem = true

/-- The bank's entry 0 holds 0 (R31, R34). -/
abbrev State.ZeroRegister (s : State) : Prop := s.bank[0] = 0#32

/-- `PC` is ID/EX's next address (R36), and a multiple of 4 (R38). -/
abbrev State.PcAgrees (s : State) : Prop := s.pc = s.idex.output.nextPc ∧ s.pc.extractLsb' 0 2 = 0#2

/-- At a cycle boundary each output side equals its input side (R150). -/
abbrev State.LatchesSettled (s : State) : Prop :=
  s.ifid.output = s.ifid.input ∧ s.idex.output = s.idex.input ∧ s.exmem.output = s.exmem.input ∧
    s.memwb.output = s.memwb.input

/-- ID/EX holds the positional fields of its word (R160, R167) and register values as the bank now holds them (R164, R196). -/
abbrev State.OperandsLatched (s : State) : Prop :=
  s.idex.output.rsIdx = rsOf s.idex.output.instr ∧ s.idex.output.rtIdx = rtOf s.idex.output.instr ∧
    s.idex.output.rdIdx = rdOf s.idex.output.instr ∧ s.idex.output.imm = sextImm (immOf s.idex.output.instr) ∧
    s.idex.output.rsVal = bankRead s.bank s.idex.output.rsIdx ∧ s.idex.output.rtVal = bankRead s.bank s.idex.output.rtIdx

/-- The control signals held in ID/EX. -/
def IdEx.control (d : IdEx) : Control :=
  { aluSrc := d.aluSrc, regDest := d.regDest, isBranch := d.isBranch, isJump := d.isJump, memRead := d.memRead,
    memWrite := d.memWrite, memToReg := d.memToReg, regWrite := d.regWrite }

/-- The six rows of R109. -/
def controlRows : List Control :=
  [Control.none, Control.rtype, Control.lw, Control.sw, Control.beq, Control.jump]

/-- The six ALU codes a decode can produce (R108; NOR is not among them, R230); the zero of reset is `ALU_AND` (R364). -/
def decodedAluCodes : List AluCode := [aluAnd, aluOr, aluAdd, aluSub, aluSlt, aluInvalid]

/-- The four control bits of EX/MEM come from one row of R109. -/
abbrev ExMem.fromRow (e : ExMem) (c : Control) : Prop :=
  e.regWrite = c.regWrite ∧ e.memRead = c.memRead ∧ e.memWrite = c.memWrite ∧ e.memToReg = c.memToReg

/-- The control signals in ID/EX and EX/MEM are rows of R109, the ALU code one that decode produces. -/
abbrev State.ControlLegal (s : State) : Prop :=
  s.idex.output.control ∈ controlRows ∧ s.idex.output.aluCtl ∈ decodedAluCodes ∧
    ∃ c ∈ controlRows, s.exmem.output.fromRow c

/-- The invariant of the machine: it holds after construction and every step keeps it. -/
abbrev State.Inv (s : State) : Prop :=
  s.StoresWf ∧ s.ZeroRegister ∧ s.PcAgrees ∧ s.LatchesSettled ∧ s.OperandsLatched ∧ s.ControlLegal

/-- No LW in the instruction store or in flight, and 0 in every register, every data byte, and every value in flight that a
forwarding tap, the bank or the data store can take (log 7). -/
structure State.ZeroWithoutLoads (s : State) : Prop where
  /-- No word of the instruction store is a LW. -/
  noLoadFetched : ∀ a : Word, opcodeOf (imemRead s.cfg s.imem a) ≠ opLw
  /-- The word in IF/ID is no LW. -/
  noLoadInDecode : opcodeOf s.ifid.output.instr ≠ opLw
  /-- ID/EX holds a row of R109 other than LW's, with a code that decode produces. -/
  noLoadInExecute : s.idex.output.control ∈ [Control.none, Control.rtype, Control.sw, Control.beq, Control.jump] ∧
    s.idex.output.aluCtl ∈ decodedAluCodes
  /-- The latched operands are 0. -/
  operandsZero : s.idex.output.rsVal = 0#32 ∧ s.idex.output.rtVal = 0#32
  /-- What EX/MEM writes to a register is an ALU result of 0. -/
  resultZero : s.exmem.output.regWrite = true → s.exmem.output.memToReg = false ∧ s.exmem.output.aluResult = 0#32
  /-- What EX/MEM stores is 0. -/
  storeDataZero : s.exmem.output.writeData = 0#32
  /-- What MEM/WB writes is 0. -/
  writeBackZero : s.memwb.output.regWrite = true → s.memwb.output.regWrData = 0#32
  /-- Every register reads 0. -/
  registersZero : ∀ k, bankRead s.bank k = 0#32
  /-- Every data byte reads 0. -/
  bytesZero : ∀ a : Nat, byteAt s.dmem a = 0#8

/-! ## Fields that nothing but an observer reads -/

/-- ID/EX without the fields kept for observation only: `isBranch`, `isJump` and the word (R41, R43). -/
def IdEx.eraseObserved (d : IdEx) : IdEx := { d with isBranch := false, isJump := false, instr := 0#32 }

/-- EX/MEM without its word (R41). -/
def ExMem.eraseObserved (e : ExMem) : ExMem := { e with instr := 0#32 }

/-- MEM/WB without its word (R41, R45). -/
def MemWb.eraseObserved (m : MemWb) : MemWb := { m with instr := 0#32 }

/-- The state without the fields the spec keeps for observation only (R41, R43, R45). -/
def State.eraseObserved (s : State) : State :=
  { s with
    idex := { input := s.idex.input.eraseObserved, output := s.idex.output.eraseObserved }
    exmem := { input := s.exmem.input.eraseObserved, output := s.exmem.output.eraseObserved }
    memwb := { input := s.memwb.input.eraseObserved, output := s.memwb.output.eraseObserved } }

/-- Two states that agree on all but `PC` and the input sides, which no stage reads (R152, R155). -/
abbrev State.SameOutputSides (s t : State) : Prop :=
  s.rst = t.rst ∧ s.cfg = t.cfg ∧ s.ifid.output = t.ifid.output ∧ s.idex.output = t.idex.output ∧
    s.exmem.output = t.exmem.output ∧ s.memwb.output = t.memwb.output ∧ s.bank = t.bank ∧ s.dmem = t.dmem ∧
    s.imem = t.imem

end Sys2Proof.Machine
end

