-- ==== Sys2Proof/Certificates/Slice0/Obligations.lean ====
section
/-! DEFINITION. The statements. Throughout, an instruction is followed by the states of its path: `s` is the state whose next
edge decodes it, `s1` the state after that edge (`exec i s = .next s1`; the instruction is in ID/EX), `s2` after execute (in
EX/MEM), `s3` after memory (in MEM/WB), `s4` after write-back (R222, R263). `s1.opA` and `s1.fwdB` are its forwarded operands.
The premise `s.rst = false` says that the reset input is released (R200). -/

open Sys2Proof Sys2Proof.Machine

namespace Sys2Proof.Claims

/-- `x[0]` reads 0, every other register its entry of the bank (R31). -/
def reg (b : Bank) (i : RegIdx) : Word := if i = 0#5 then 0#32 else b[i.toNat]'i.isLt

/-- The path of a register-type instruction with result `r` (R222): decode latches the operands and the control row of
`OP_RTYPE` and selects `pc + 4`; execute leaves `r` for `rd`; memory passes it on and stores nothing; write-back changes
`x[rd]` and no other register, and nothing when `rd` is 0. -/
def RtypePath (rs rt rd : RegIdx) (r : Word) (s s1 s2 s3 s4 : State) : Prop :=
  s1.pc = s.idex.output.nextPc + 4#32 ∧ s1.idex.output.control = Control.rtype ∧
  s1.idex.output.rsIdx = rs ∧ s1.idex.output.rtIdx = rt ∧
  s1.idex.output.rsVal = reg s1.bank rs ∧ s1.idex.output.rtVal = reg s1.bank rt ∧
  s2.exmem.output.aluResult = r ∧ s2.exmem.output.registerNum = rd ∧ s2.exmem.output.regWrite = true ∧
  s3.memwb.output.regWrData = r ∧ s3.memwb.output.registerNum = rd ∧ s3.memwb.output.regWrite = true ∧
  s3.dmem = s2.dmem ∧
  ∀ k, reg s4.bank k = if k = rd ∧ rd ≠ 0#5 then r else reg s3.bank k

/-- The path of an instruction that neither stores nor writes a register: its memory cycle leaves the data store and its
write-back cycle leaves the bank as they were. -/
def NoEffectPath (s2 s3 s4 : State) : Prop :=
  s2.exmem.output.regWrite = false ∧ s2.exmem.output.memWrite = false ∧ s2.exmem.output.memRead = false ∧
  s3.memwb.output.regWrite = false ∧ s3.dmem = s2.dmem ∧ s4.bank = s3.bank

end Sys2Proof.Claims

open Sys2Proof.Claims

/-! ## Encoding -/

/-- Words of 95_test_vectors.md L2-2 and of the instruction rules' examples decode to what the tables there say. -/
def Obligations.SampleWordsDecode : Prop :=
  decode 0x00221820#32 = .add 1#5 2#5 3#5 0#5 ∧ decode 0x00612022#32 = .sub 3#5 1#5 4#5 0#5 ∧
  decode 0x00642824#32 = .and 3#5 4#5 5#5 0#5 ∧ decode 0x00653025#32 = .or 3#5 5#5 6#5 0#5 ∧
  decode 0x0022382A#32 = .slt 1#5 2#5 7#5 0#5 ∧ decode 0x8C050064#32 = .lw 0#5 5#5 100#16 ∧
  decode 0xAC66FFFC#32 = .sw 3#5 6#5 0xFFFC#16 ∧ decode 0x10200004#32 = .beq 1#5 0#5 4#16 ∧
  decode 0x08000004#32 = .j 4#26 ∧ decode 0x00011880#32 = .rtypeUnmappedFunct 0#5 1#5 3#5 2#5 0#6 ∧
  decode 0x20210001#32 = .unmappedOpcode 0x08#6 0x0210001#26

/-- Decoding the word of a well-formed instruction gives it back, for every operand (R101, R102, R105, R106). -/
def Obligations.DecodeOfEncode : Prop := ∀ i : Instr, i.wellFormed = true → decode (encode i) = i

/-- R110, R112: every word decodes to a well-formed instruction, whose word it is; so to exactly one. -/
def Obligations.EveryWordIsOneInstruction : Prop :=
  ∀ w : Word, (decode w).wellFormed = true ∧ encode (decode w) = w ∧
    ∀ i : Instr, i.wellFormed = true → encode i = w → i = decode w

/-- The opcode table's masks and matches, by priority (R112), against the decoder. -/
def Obligations.DecodeFollowsOpcodeTable : Prop :=
  ∀ w : Word,
    (w &&& 0xFC00003F#32 = 0x00000020#32 ↔ decode w = .add (rsOf w) (rtOf w) (rdOf w) (shamtOf w)) ∧
    (w &&& 0xFC00003F#32 = 0x00000022#32 ↔ decode w = .sub (rsOf w) (rtOf w) (rdOf w) (shamtOf w)) ∧
    (w &&& 0xFC00003F#32 = 0x00000024#32 ↔ decode w = .and (rsOf w) (rtOf w) (rdOf w) (shamtOf w)) ∧
    (w &&& 0xFC00003F#32 = 0x00000025#32 ↔ decode w = .or (rsOf w) (rtOf w) (rdOf w) (shamtOf w)) ∧
    (w &&& 0xFC00003F#32 = 0x0000002A#32 ↔ decode w = .slt (rsOf w) (rtOf w) (rdOf w) (shamtOf w)) ∧
    (w &&& 0xFC000000#32 = 0x8C000000#32 ↔ decode w = .lw (rsOf w) (rtOf w) (immOf w)) ∧
    (w &&& 0xFC000000#32 = 0xAC000000#32 ↔ decode w = .sw (rsOf w) (rtOf w) (immOf w)) ∧
    (w &&& 0xFC000000#32 = 0x10000000#32 ↔ decode w = .beq (rsOf w) (rtOf w) (immOf w)) ∧
    (w &&& 0xFC000000#32 = 0x08000000#32 ↔ decode w = .j (targetOf w)) ∧
    ((w &&& 0xFC000000#32 = 0x00000000#32 ∧
        ∀ m ∈ [0x20#32, 0x22#32, 0x24#32, 0x25#32, 0x2A#32], w &&& 0xFC00003F#32 ≠ m) ↔
      decode w = .rtypeUnmappedFunct (rsOf w) (rtOf w) (rdOf w) (shamtOf w) (functOf w)) ∧
    ((∀ m ∈ [0x00000000#32, 0x8C000000#32, 0xAC000000#32, 0x10000000#32, 0x08000000#32], w &&& 0xFC000000#32 ≠ m) ↔
      decode w = .unmappedOpcode (opcodeOf w) (targetOf w))

/-! ## The step -/

/-- With the reset pin released, a step is `exec` of the instruction that the word in IF/ID decodes to, and nothing else. -/
def Obligations.StepRunsDecodedWord : Prop :=
  ∀ (s : State) (i : Instr), s.rst = false → i.wellFormed = true → decode s.ifid.output.instr = i → step s = exec i s

/-- The word at `PC` is fetched by one step and is the instruction the next step runs. -/
def Obligations.WordAtPcRunsInTheNextStep : Prop :=
  ∀ s : State, s.rst = false → s.PcAgrees →
    ∃ t, step s = .next t ∧ t.ifid.output.instr = imemRead s.cfg s.imem s.pc ∧
      step t = exec (decode (imemRead s.cfg s.imem s.pc)) t

/-- R320: nothing faults, nothing is refused: every instruction answers a next state from every state, and every run of any
length from any state completes. -/
def Obligations.NothingEverFaults : Prop :=
  (∀ (i : Instr) (s : State), ∃ t, exec i s = .next t) ∧ ∀ (n : Nat) (s : State), RunsSafely n s

/-- The machine is the cycle of R202: eleven meanings behind a decoder step exactly as the flat datapath with the tables of
R107 to R109. That both forms keep the latched values in the input sides, which R202 leaves out of its state, is log 4. -/
def Obligations.StepIsTheDatapathCycle : Prop := ∀ s : State, s.rst = false → step s = .next s.datapathCycle

/-- R150 and R201: at the edge each output side takes its input side, and `PC` takes `next_pc` of ID/EX's input side. -/
def Obligations.EdgeLoadsLatchesAndPc : Prop :=
  ∀ s : State, s.rst = false → ∃ t, step s = .next t ∧
    t.ifid.output = t.ifid.input ∧ t.idex.output = t.idex.input ∧ t.exmem.output = t.exmem.input ∧
    t.memwb.output = t.memwb.input ∧ t.pc = t.idex.input.nextPc

/-- R155 with R72: the fetch stage reads the word at ID/EX's next address, 0 past the capacity. -/
def Obligations.FetchStageReadsInstructionStore : Prop :=
  ∀ s : State, s.rst = false → ∃ t, step s = .next t ∧
    t.ifid.input.instr =
      (if s.idex.output.nextPc.toNat / 4 < s.cfg.imemWords then storeRead s.imem (s.idex.output.nextPc.toNat / 4) else 0#32)

/-- R164, R190, R196: write-back writes `x[registerNum]` if `regWrite`, index 0 discarded, and the decode stage of the same
cycle reads both its registers, for every word, after that write, as the bypass formula of R196 gives them. -/
def Obligations.WriteBackLandsBeforeDecodeReads : Prop :=
  ∀ s : State, s.rst = false → ∃ t, step s = .next t ∧
    (∀ k, reg t.bank k =
      if s.memwb.output.regWrite = true ∧ s.memwb.output.registerNum = k ∧ k ≠ 0#5 then s.memwb.output.regWrData
      else reg s.bank k) ∧
    (∀ k, s.readPort k = reg t.bank k) ∧
    t.idex.input.rsVal = s.readPort (rsOf s.ifid.output.instr) ∧
    t.idex.input.rtVal = s.readPort (rtOf s.ifid.output.instr)

/-- R165 and R166: the equality unit with its one tap, and the program-counter mux with the jump before the branch. -/
def Obligations.EqualityUnitAndPcMux : Prop :=
  ∀ s : State, s.rst = false → ∃ t, step s = .next t ∧
    (let w := s.ifid.output.instr
     let e := s.exmem.output
     let pc := s.idex.output.nextPc
     let eqA := if e.regWrite = true ∧ e.registerNum = rsOf w ∧ rsOf w ≠ 0#5 then e.aluResult else reg t.bank (rsOf w)
     let eqB := if e.regWrite = true ∧ e.registerNum = rtOf w ∧ rtOf w ≠ 0#5 then e.aluResult else reg t.bank (rtOf w)
     let np := if (controlOf (opcodeOf w)).isBranch = true ∧ eqA = eqB then pc + 4#32 + ((immOf w).signExtend 32 <<< 2)
       else pc + 4#32
     t.idex.input.nextPc =
       if (controlOf (opcodeOf w)).isJump = true then ((pc + 4#32) &&& 0xF0000000#32) ||| ((targetOf w).setWidth 32 <<< 2)
       else np)

/-- R170 to R175: the forwarding unit with EX/MEM before MEM/WB and index 0 excluded, the two muxes, the ALU, and every field
of EX/MEM. -/
def Obligations.ExecuteStageForwardsAndComputes : Prop :=
  ∀ s : State, s.rst = false → ∃ t, step s = .next t ∧
    (let d := s.idex.output
     let e := s.exmem.output
     let m := s.memwb.output
     let opA := if e.regWrite = true ∧ e.registerNum = d.rsIdx ∧ d.rsIdx ≠ 0#5 then e.aluResult
       else if m.regWrite = true ∧ m.registerNum = d.rsIdx ∧ d.rsIdx ≠ 0#5 then m.regWrData else d.rsVal
     let fwdB := if e.regWrite = true ∧ e.registerNum = d.rtIdx ∧ d.rtIdx ≠ 0#5 then e.aluResult
       else if m.regWrite = true ∧ m.registerNum = d.rtIdx ∧ d.rtIdx ≠ 0#5 then m.regWrData else d.rtVal
     let opB := if d.aluSrc = true then d.imm else fwdB
     t.exmem.input =
       { regWrite := d.regWrite, memRead := d.memRead, memWrite := d.memWrite, memToReg := d.memToReg,
         aluResult := alu d.aluCtl opA opB, writeData := fwdB,
         registerNum := if d.regDest = true then d.rdIdx else d.rtIdx, instr := d.instr })

/-- R180 to R183: the memory stage reads the old word, writes when enabled, and fills MEM/WB. -/
def Obligations.MemoryStageReadsWritesAndPasses : Prop :=
  ∀ s : State, s.rst = false → ∃ t, step s = .next t ∧
    (let e := s.exmem.output
     t.memwb.input =
       { regWrite := e.regWrite, registerNum := e.registerNum,
         regWrData := if e.memToReg = true then memRead s.cfg s.dmem e.aluResult e.memRead else e.aluResult,
         instr := e.instr } ∧
     t.dmem = memWrite s.cfg s.dmem e.aluResult e.writeData e.memWrite)

/-- R220: the ALU's table, every code that names no operation giving 0. -/
def Obligations.AluFollowsItsTable : Prop :=
  ∀ (c : AluCode) (a b : Word),
    alu 0x0#4 a b = a &&& b ∧ alu 0x1#4 a b = a ||| b ∧ (alu 0x2#4 a b).toNat = (a.toNat + b.toNat) % 2 ^ 32 ∧
    (alu 0x6#4 a b).toNat = (a.toNat + (2 ^ 32 - b.toNat)) % 2 ^ 32 ∧
    alu 0x7#4 a b = (if a.toNat < b.toNat then 1#32 else 0#32) ∧ alu 0xC#4 a b = ~~~(a ||| b) ∧
    (c ∉ [0x0#4, 0x1#4, 0x2#4, 0x6#4, 0x7#4, 0xC#4] → alu c a b = 0#32)

/-! ## Reset -/

/-- R141 and R360: after construction, and after any edge with the pin set, `PC` and every field of both sides of every
pipeline register are 0; such an edge writes no collaborator. -/
def Obligations.ResetZeroesTheCore : Prop :=
  (∀ cfg : Config, (State.construct cfg).pc = 0#32 ∧
    (State.construct cfg).ifid = { input := IfId.zero, output := IfId.zero } ∧
    (State.construct cfg).idex = { input := IdEx.zero, output := IdEx.zero } ∧
    (State.construct cfg).exmem = { input := ExMem.zero, output := ExMem.zero } ∧
    (State.construct cfg).memwb = { input := MemWb.zero, output := MemWb.zero }) ∧
  ∀ s : State, s.rst = true → ∃ t, step s = .next t ∧ t.pc = 0#32 ∧
    t.ifid = { input := IfId.zero, output := IfId.zero } ∧ t.idex = { input := IdEx.zero, output := IdEx.zero } ∧
    t.exmem = { input := ExMem.zero, output := ExMem.zero } ∧ t.memwb = { input := MemWb.zero, output := MemWb.zero } ∧
    t.bank = s.bank ∧ t.dmem = s.dmem ∧ t.imem = s.imem ∧ t.cfg = s.cfg

/-- R361: at construction every register, every data byte and every word of the instruction store reads 0. -/
def Obligations.ResetStoresReadZero : Prop :=
  ∀ (cfg : Config) (k : RegIdx) (a : Nat) (addr : Word),
    reg (State.construct cfg).bank k = 0#32 ∧ byteAt (State.construct cfg).dmem a = 0#8 ∧
    imemRead cfg (State.construct cfg).imem addr = 0#32

/-- R362: whatever program is loaded, the first step from construction fetches address 0 and decodes a NOP, and the second
runs the word at address 0 with `pc = 4`. -/
def Obligations.FirstInstructionIsAtAddressZero : Prop :=
  ∀ (cfg : Config) (program : InstrStore) (bank : Bank) (data : Memory),
    ∃ t, step { State.construct cfg with imem := program, bank := bank, dmem := data } = .next t ∧
      t.ifid.output.instr = imemRead cfg program 0#32 ∧ t.pc = 4#32 ∧ t.idex.output.nextPc = 4#32 ∧
      t.dmem = data ∧ (∀ k, reg t.bank k = reg bank k) ∧ step t = exec (decode (imemRead cfg program 0#32)) t

/-! ## Register-type instructions -/

/-- R225 and R226: ADD and SUB, modulo 2^32, from their encodings to the register written. -/
def Obligations.AddAndSubWriteTheirResults : Prop :=
  (∀ w : Word, w &&& 0xFC00003F#32 = 0x00000020#32 → decode w = .add (rsOf w) (rtOf w) (rdOf w) (shamtOf w)) ∧
  (∀ w : Word, w &&& 0xFC00003F#32 = 0x00000022#32 → decode w = .sub (rsOf w) (rtOf w) (rdOf w) (shamtOf w)) ∧
  ∀ (s : State) (rs rt rd shamt : RegIdx), s.rst = false →
    (∃ s1 s2 s3 s4, exec (.add rs rt rd shamt) s = .next s1 ∧ step s1 = .next s2 ∧ step s2 = .next s3 ∧
      step s3 = .next s4 ∧ s1.idex.output.aluCtl = aluAdd ∧
      RtypePath rs rt rd (BitVec.ofNat 32 (s1.opA.toNat + s1.fwdB.toNat)) s s1 s2 s3 s4) ∧
    (∃ s1 s2 s3 s4, exec (.sub rs rt rd shamt) s = .next s1 ∧ step s1 = .next s2 ∧ step s2 = .next s3 ∧
      step s3 = .next s4 ∧ s1.idex.output.aluCtl = aluSub ∧
      RtypePath rs rt rd (BitVec.ofInt 32 (s1.opA.toNat - s1.fwdB.toNat)) s s1 s2 s3 s4)

/-- R227 and R228: AND and OR, bit by bit, from their encodings to the register written. -/
def Obligations.AndAndOrWriteTheirResults : Prop :=
  (∀ w : Word, w &&& 0xFC00003F#32 = 0x00000024#32 → decode w = .and (rsOf w) (rtOf w) (rdOf w) (shamtOf w)) ∧
  (∀ w : Word, w &&& 0xFC00003F#32 = 0x00000025#32 → decode w = .or (rsOf w) (rtOf w) (rdOf w) (shamtOf w)) ∧
  ∀ (s : State) (rs rt rd shamt : RegIdx), s.rst = false →
    (∃ s1 s2 s3 s4, exec (.and rs rt rd shamt) s = .next s1 ∧ step s1 = .next s2 ∧ step s2 = .next s3 ∧
      step s3 = .next s4 ∧ s1.idex.output.aluCtl = aluAnd ∧ RtypePath rs rt rd (s1.opA &&& s1.fwdB) s s1 s2 s3 s4) ∧
    (∃ s1 s2 s3 s4, exec (.or rs rt rd shamt) s = .next s1 ∧ step s1 = .next s2 ∧ step s2 = .next s3 ∧
      step s3 = .next s4 ∧ s1.idex.output.aluCtl = aluOr ∧ RtypePath rs rt rd (s1.opA ||| s1.fwdB) s s1 s2 s3 s4)

/-- R229: SLT compares as unsigned 32-bit integers. -/
def Obligations.SltWritesTheUnsignedComparison : Prop :=
  (∀ w : Word, w &&& 0xFC00003F#32 = 0x0000002A#32 → decode w = .slt (rsOf w) (rtOf w) (rdOf w) (shamtOf w)) ∧
  ∀ (s : State) (rs rt rd shamt : RegIdx), s.rst = false →
    ∃ s1 s2 s3 s4, exec (.slt rs rt rd shamt) s = .next s1 ∧ step s1 = .next s2 ∧ step s2 = .next s3 ∧
      step s3 = .next s4 ∧ s1.idex.output.aluCtl = aluSlt ∧
      RtypePath rs rt rd (if s1.opA.toNat < s1.fwdB.toNat then 1#32 else 0#32) s s1 s2 s3 s4

/-- R300: a register-type word with an unmapped funct writes 0 to `rd`, and nothing when `rd` is 0 (the NOP, R302). With `rd`
not 0, its zero is what the next two instructions are forwarded, and what a BEQ two instructions later compares. -/
def Obligations.UnmappedFunctWritesZero : Prop :=
  (∀ w : Word, w &&& 0xFC000000#32 = 0#32 → functOf w ∉ mappedFuncts →
    decode w = .rtypeUnmappedFunct (rsOf w) (rtOf w) (rdOf w) (shamtOf w) (functOf w)) ∧
  ∀ (s : State) (rs rt rd shamt : RegIdx) (funct : Field6), s.rst = false → funct ∉ mappedFuncts →
    ∃ s1 s2 s3 s4, exec (.rtypeUnmappedFunct rs rt rd shamt funct) s = .next s1 ∧ step s1 = .next s2 ∧
      step s2 = .next s3 ∧ step s3 = .next s4 ∧ s1.idex.output.aluCtl = 0xF#4 ∧
      RtypePath rs rt rd 0#32 s s1 s2 s3 s4 ∧
      (rd ≠ 0#5 → s2.eqInput rd = 0#32 ∧ (∀ v, s2.forward rd v = 0#32) ∧
        (s3.exmemTap rd = false → ∀ v, s3.forward rd v = 0#32))

/-! ## Loads and stores -/

/-- R261: LW takes its base from `rs`, computes `opA + sext imm`, reads the word there from the data store of its memory cycle (0 out of range), writes
it to `rt` unless `rt` is 0, changes no other register, and stores nothing. While it is in EX/MEM, a consumer of `rt` gets the
address. -/
def Obligations.LwLoadsTheWord : Prop :=
  (∀ w : Word, w &&& 0xFC000000#32 = 0x8C000000#32 → decode w = .lw (rsOf w) (rtOf w) (immOf w)) ∧
  ∀ (s : State) (rs rt : RegIdx) (imm : Imm16), s.rst = false →
    ∃ s1 s2 s3 s4, exec (.lw rs rt imm) s = .next s1 ∧ step s1 = .next s2 ∧ step s2 = .next s3 ∧ step s3 = .next s4 ∧
      s1.pc = s.idex.output.nextPc + 4#32 ∧ s1.idex.output.control = Control.lw ∧ s1.idex.output.aluCtl = aluAdd ∧
      s1.idex.output.rsIdx = rs ∧ s1.idex.output.rsVal = reg s1.bank rs ∧
      s2.exmem.output.aluResult = s1.opA + imm.signExtend 32 ∧ s2.exmem.output.registerNum = rt ∧
      s3.memwb.output.regWrData = memRead s2.cfg s2.dmem (s1.opA + imm.signExtend 32) true ∧ s3.dmem = s2.dmem ∧
      (∀ k, reg s4.bank k =
        if k = rt ∧ rt ≠ 0#5 then memRead s2.cfg s2.dmem (s1.opA + imm.signExtend 32) true else reg s3.bank k) ∧
      (rt ≠ 0#5 → s2.eqInput rt = s1.opA + imm.signExtend 32 ∧ ∀ v, s2.forward rt v = s1.opA + imm.signExtend 32)

/-- R262: SW takes its base from `rs` and its data from `rt`, and stores the forwarded `rt` value at `opA + sext imm`: in range, byte `k` of the four at that address becomes bits
`8k+7 .. 8k` and every other byte reads as before; out of range, every byte reads as before; no register is written. -/
def Obligations.SwStoresTheWord : Prop :=
  (∀ w : Word, w &&& 0xFC000000#32 = 0xAC000000#32 → decode w = .sw (rsOf w) (rtOf w) (immOf w)) ∧
  ∀ (s : State) (rs rt : RegIdx) (imm : Imm16), s.rst = false →
    ∃ s1 s2 s3 s4, exec (.sw rs rt imm) s = .next s1 ∧ step s1 = .next s2 ∧ step s2 = .next s3 ∧ step s3 = .next s4 ∧
      s1.pc = s.idex.output.nextPc + 4#32 ∧ s1.idex.output.control = Control.sw ∧ s1.idex.output.aluCtl = aluAdd ∧
      s1.idex.output.rsIdx = rs ∧ s1.idex.output.rtIdx = rt ∧
      s1.idex.output.rsVal = reg s1.bank rs ∧ s1.idex.output.rtVal = reg s1.bank rt ∧
      s2.exmem.output.aluResult = s1.opA + imm.signExtend 32 ∧ s2.exmem.output.writeData = s1.fwdB ∧
      (∀ a : Nat, byteAt s3.dmem a =
        if (s1.opA + imm.signExtend 32).toNat + 4 ≤ s2.cfg.dmemBytes ∧ (s1.opA + imm.signExtend 32).toNat ≤ a ∧
          a < (s1.opA + imm.signExtend 32).toNat + 4
        then byteOf s1.fwdB (a - (s1.opA + imm.signExtend 32).toNat) else byteAt s2.dmem a) ∧
      s4.bank = s3.bank

/-- R76: a disabled or out-of-range read gives 0; an enabled read in range gives the four bytes, little-endian, at any
alignment. -/
def Obligations.DataReadIsLittleEndian : Prop :=
  ∀ (c : Config) (m : Memory) (addr : Word) (k : Nat), 4 ≤ c.dmemBytes →
    memRead c m addr false = 0#32 ∧
    (addr.toNat > c.dmemBytes - 4 → memRead c m addr true = 0#32) ∧
    (addr.toNat ≤ c.dmemBytes - 4 → k < 4 → byteOf (memRead c m addr true) k = byteAt m (addr.toNat + k))

/-- R77: only an enabled write in range changes the data store, and only its four bytes, byte `k` to bits `8k+7 .. 8k`. -/
def Obligations.DataWriteTouchesFourBytes : Prop :=
  ∀ (c : Config) (m : Memory) (addr value : Word) (en : Bool) (a : Nat), 4 ≤ c.dmemBytes →
    byteAt (memWrite c m addr value en) a =
      if en = true ∧ addr.toNat ≤ c.dmemBytes - 4 ∧ addr.toNat ≤ a ∧ a < addr.toNat + 4
      then byteOf value (a - addr.toNat) else byteAt m a

/-- R85: a LW directly after a SW of the same address loads the word stored, with no spacing. -/
def Obligations.LoadDirectlyAfterStoreSeesIt : Prop :=
  ∀ (s : State) (rs rt rs' rt' : RegIdx) (imm imm' : Imm16), s.rst = false →
    ∃ s1 s2 s3 s4, exec (.sw rs rt imm) s = .next s1 ∧ exec (.lw rs' rt' imm') s1 = .next s2 ∧ step s2 = .next s3 ∧
      step s3 = .next s4 ∧
      (s2.opA + imm'.signExtend 32 = s1.opA + imm.signExtend 32 →
        (s1.opA + imm.signExtend 32).toNat + 4 ≤ s.cfg.dmemBytes → s4.memwb.output.regWrData = s1.fwdB)

/-! ## Control transfer -/

/-- R280: BEQ selects its target exactly when the equality unit's two values agree, and does nothing later. The compared
value of a register is the bank's after this cycle's write-back, or the ALU result of a producer in EX/MEM. -/
def Obligations.BeqSelectsItsTarget : Prop :=
  (∀ w : Word, w &&& 0xFC000000#32 = 0x10000000#32 → decode w = .beq (rsOf w) (rtOf w) (immOf w)) ∧
  ∀ (s : State) (rs rt : RegIdx) (imm : Imm16), s.rst = false →
    ∃ s1 s2 s3 s4, exec (.beq rs rt imm) s = .next s1 ∧ step s1 = .next s2 ∧ step s2 = .next s3 ∧ step s3 = .next s4 ∧
      (let value : RegIdx → Word := fun r =>
         if s.exmem.output.regWrite = true ∧ s.exmem.output.registerNum = r ∧ r ≠ 0#5 then s.exmem.output.aluResult
         else reg s1.bank r
       s1.pc = if value rs = value rt then s.idex.output.nextPc + 4#32 + (imm.signExtend 32 <<< 2)
         else s.idex.output.nextPc + 4#32) ∧
      s1.idex.output.control = Control.beq ∧ s1.idex.output.aluCtl = aluSub ∧
      s2.exmem.output.aluResult = s1.opA - s1.fwdB ∧ NoEffectPath s2 s3 s4

/-- R281: J selects `((pc + 4) & 0xF0000000) | (target << 2)` and does nothing later; execute computes 0. -/
def Obligations.JSelectsItsTarget : Prop :=
  (∀ w : Word, w &&& 0xFC000000#32 = 0x08000000#32 → decode w = .j (targetOf w)) ∧
  ∀ (s : State) (target : Target26), s.rst = false →
    ∃ s1 s2 s3 s4, exec (.j target) s = .next s1 ∧ step s1 = .next s2 ∧ step s2 = .next s3 ∧ step s3 = .next s4 ∧
      s1.pc = ((s.idex.output.nextPc + 4#32) &&& 0xF0000000#32) ||| (target.setWidth 32 <<< 2) ∧
      s1.idex.output.control = Control.jump ∧ s1.idex.output.aluCtl = aluInvalid ∧
      s2.exmem.output.aluResult = 0#32 ∧ NoEffectPath s2 s3 s4

/-- R301: a word with an unmapped opcode selects `pc + 4`, computes 0, accesses nothing and writes nothing. -/
def Obligations.UnmappedOpcodeHasNoEffect : Prop :=
  (∀ w : Word, opcodeOf w ∉ mappedOpcodes → decode w = .unmappedOpcode (opcodeOf w) (targetOf w)) ∧
  ∀ (s : State) (opcode : Field6) (rest : BitVec 26), s.rst = false → opcode ∉ mappedOpcodes →
    ∃ s1 s2 s3 s4, exec (.unmappedOpcode opcode rest) s = .next s1 ∧ step s1 = .next s2 ∧ step s2 = .next s3 ∧
      step s3 = .next s4 ∧ s1.pc = s.idex.output.nextPc + 4#32 ∧ s1.idex.output.control = Control.none ∧
      s1.idex.output.aluCtl = aluInvalid ∧ s2.exmem.output.aluResult = 0#32 ∧ NoEffectPath s2 s3 s4

/-- R282 to R284: at address `A` (so decoded with `pc = A + 4`), J goes to `{(A + 8)[31:28], target, 00}` and a BEQ of a
register with itself to `A + 8 + 4 * sext imm`; the word at `A + 4`, the delay slot, is what the next step runs, and the
target's word is what the step after it runs. -/
def Obligations.TargetsAndTheDelaySlot : Prop :=
  ∀ (s : State) (A : Word), s.rst = false → s.idex.output.nextPc = A + 4#32 →
    (∀ target : Target26, ∃ s1 s2, exec (.j target) s = .next s1 ∧
      s1.pc = ((A + 8#32) &&& 0xF0000000#32) ||| (target.setWidth 32 <<< 2) ∧
      step s1 = exec (decode (imemRead s.cfg s.imem (A + 4#32))) s1 ∧ step s1 = .next s2 ∧
      step s2 = exec (decode (imemRead s.cfg s.imem s1.pc)) s2) ∧
    (∀ (r : RegIdx) (imm : Imm16), ∃ s1 s2, exec (.beq r r imm) s = .next s1 ∧
      s1.pc = A + 8#32 + 4#32 * imm.signExtend 32 ∧
      step s1 = exec (decode (imemRead s.cfg s.imem (A + 4#32))) s1 ∧ step s1 = .next s2 ∧
      step s2 = exec (decode (imemRead s.cfg s.imem s1.pc)) s2)

/-- R285: a transfer in the delay slot of a jump takes its base from the jump's target `T`: one instruction runs at `T`, then
control goes to the second target. -/
def Obligations.TransferInADelaySlot : Prop :=
  ∀ (s : State) (t1 t2 : Target26) (r : RegIdx) (imm : Imm16), s.rst = false →
    ∃ s1 s2 s2' s3 s3', exec (.j t1) s = .next s1 ∧
      exec (.j t2) s1 = .next s2 ∧ s2.pc = ((s1.pc + 4#32) &&& 0xF0000000#32) ||| (t2.setWidth 32 <<< 2) ∧
      step s2 = exec (decode (imemRead s.cfg s.imem s1.pc)) s2 ∧ step s2 = .next s3 ∧
      step s3 = exec (decode (imemRead s.cfg s.imem s2.pc)) s3 ∧
      exec (.beq r r imm) s1 = .next s2' ∧ s2'.pc = s1.pc + 4#32 + 4#32 * imm.signExtend 32 ∧
      step s2' = exec (decode (imemRead s.cfg s.imem s1.pc)) s2' ∧ step s2' = .next s3' ∧
      step s3' = exec (decode (imemRead s.cfg s.imem s2'.pc)) s3'

/-- R287: the mux takes the jump's address whatever the branch says, and no word decodes with both signals. -/
def Obligations.JumpHasPriorityOverBranch : Prop :=
  (∀ (pc imm : Word) (target : Target26) (isBranch equal : Bool),
    nextPcMux pc imm target isBranch equal true = ((pc + 4#32) &&& 0xF0000000#32) ||| (target.setWidth 32 <<< 2)) ∧
  ∀ s t : State, s.rst = false → step s = .next t → ¬ (t.idex.input.isBranch = true ∧ t.idex.input.isJump = true)

/-- R37 over a run: with no BEQ or J in the instruction store or in IF/ID, after `n` steps the next address has moved `4 n`,
and the word then in IF/ID is the one `4 (n - 1)` past the start. -/
def Obligations.StraightLineAdvancesByFour : Prop :=
  ∀ (n : Nat) (s t : State), s.rst = false →
    (∀ a : Word, opcodeOf (imemRead s.cfg s.imem a) ∉ [opBeq, opJ]) → opcodeOf s.ifid.output.instr ∉ [opBeq, opJ] →
    Host.Core.run Sys2Proof.core n s = .next t →
    t.idex.output.nextPc = s.idex.output.nextPc + BitVec.ofNat 32 (4 * n) ∧
    (∀ k, n = k + 1 → t.ifid.output.instr = imemRead s.cfg s.imem (s.idex.output.nextPc + BitVec.ofNat 32 (4 * k)))

/-! ## Forwarding and its hazards -/

/-- Forwarding gives the non-pipelined result (R192, R382, R387): unless the instruction directly before it is a load whose
destination it reads, every instruction's write-back applies to the committed registers, and its memory cycle to the data
store, exactly the effect it has when executed alone. -/
def Obligations.EveryInstructionCommitsAsIfAlone : Prop :=
  ∀ (s : State) (i : Instr), s.rst = false → i.wellFormed = true →
    (s.idex.output.memToReg = false ∨ s.dest = 0#5 ∨ s.dest ∉ executeSources i) →
    ∃ s1 s2 s3 s4, exec i s = .next s1 ∧ step s1 = .next s2 ∧ step s2 = .next s3 ∧ step s3 = .next s4 ∧
      s4.bank = (Arch.run s.cfg { bank := s3.bank, dmem := s2.dmem } i).bank ∧
      s3.dmem = (Arch.run s.cfg { bank := s3.bank, dmem := s2.dmem } i).dmem

/-- A branch decides on the committed registers (R192, R387): when no instruction in execute writes an operand and no load in
EX/MEM does, BEQ compares what its two registers hold once every older instruction has written back. -/
def Obligations.BranchDecidesOnCommittedValues : Prop :=
  ∀ (s : State) (rs rt : RegIdx) (imm : Imm16), s.rst = false →
    (∀ r ∈ [rs, rt], r ≠ 0#5 →
      ¬ (s.idex.output.regWrite = true ∧ s.dest = r) ∧
      ¬ (s.exmem.output.regWrite = true ∧ s.exmem.output.registerNum = r ∧ s.exmem.output.memToReg = true)) →
    ∃ s1 s2 s3, exec (.beq rs rt imm) s = .next s1 ∧ step s1 = .next s2 ∧ step s2 = .next s3 ∧
      s1.pc = if reg s3.bank rs = reg s3.bank rt then s.idex.output.nextPc + 4#32 + (imm.signExtend 32 <<< 2)
        else s.idex.output.nextPc + 4#32

/-- R383: the instruction directly after a LW that reads its destination gets the address; the one after that, with no write
between, gets the loaded word. -/
def Obligations.LoadUseGetsTheAddress : Prop :=
  ∀ (s : State) (rs rt : RegIdx) (imm : Imm16), s.rst = false → rt ≠ 0#5 →
    ∃ s1 s2 s3, exec (.lw rs rt imm) s = .next s1 ∧ step s1 = .next s2 ∧ step s2 = .next s3 ∧
      (rsOf s1.ifid.output.instr = rt → s2.opA = s1.opA + imm.signExtend 32) ∧
      (rtOf s1.ifid.output.instr = rt → s2.fwdB = s1.opA + imm.signExtend 32) ∧
      (¬ (s2.idex.output.regWrite = true ∧ s2.dest = rt) →
        (rsOf s2.ifid.output.instr = rt → s3.opA = memRead s.cfg s2.dmem (s1.opA + imm.signExtend 32) true) ∧
        (rtOf s2.ifid.output.instr = rt → s3.fwdB = memRead s.cfg s2.dmem (s1.opA + imm.signExtend 32) true))

/-- R384: a BEQ directly after any instruction `i`, whichever operand `i` writes, compares the values from before `i`: those
the registers hold once every instruction older than `i` has written back (`s3`), a load in EX/MEM giving its address instead
(R385). The result of `i` lands one edge later (`s4`), in its destination and nowhere else. -/
def Obligations.BranchAfterProducerIsStale : Prop :=
  ∀ (s : State) (i : Instr) (rs rt : RegIdx) (imm : Imm16), s.rst = false →
    ∃ s1 s2 s3 s4, exec i s = .next s1 ∧ exec (.beq rs rt imm) s1 = .next s2 ∧ step s2 = .next s3 ∧ step s3 = .next s4 ∧
      (let before : RegIdx → Word := fun r =>
         if s1.exmem.output.regWrite = true ∧ s1.exmem.output.memToReg = true ∧ s1.exmem.output.registerNum = r ∧ r ≠ 0#5
         then s1.exmem.output.aluResult else reg s3.bank r
       s2.pc = if before rs = before rt then s1.pc + 4#32 + (imm.signExtend 32 <<< 2) else s1.pc + 4#32) ∧
      (s1.idex.output.regWrite = true → s1.dest ≠ 0#5 →
        ∀ k, reg s4.bank k = if k = s1.dest then s3.memwb.output.regWrData else reg s3.bank k)

/-- R385: a BEQ two instructions after a LW of its operand compares the LW's address. -/
def Obligations.BranchAfterLoadComparesTheAddress : Prop :=
  ∀ (s : State) (rs rt other : RegIdx) (imm imm' : Imm16), s.rst = false → rt ≠ 0#5 → other ≠ rt →
    ∃ s1 s2 s3, exec (.lw rs rt imm) s = .next s1 ∧ step s1 = .next s2 ∧ exec (.beq rt other imm') s2 = .next s3 ∧
      s3.pc = if s1.opA + imm.signExtend 32 = reg s3.bank other then s2.pc + 4#32 + (imm'.signExtend 32 <<< 2)
        else s2.pc + 4#32

/-- R386: a SW of `rt` directly after the LW of `rt` stores the LW's address. -/
def Obligations.StoreAfterLoadStoresTheAddress : Prop :=
  ∀ (s : State) (rs rt rs' : RegIdx) (imm imm' : Imm16), s.rst = false → rt ≠ 0#5 →
    ∃ s1 s2 s3 s4, exec (.lw rs rt imm) s = .next s1 ∧ exec (.sw rs' rt imm') s1 = .next s2 ∧ step s2 = .next s3 ∧
      step s3 = .next s4 ∧
      (∀ k < 4, (s2.opA + imm'.signExtend 32).toNat + 4 ≤ s.cfg.dmemBytes →
        byteAt s4.dmem ((s2.opA + imm'.signExtend 32).toNat + k) = byteOf (s1.opA + imm.signExtend 32) k) ∧
      (rs' = rt → s2.opA = s1.opA + imm.signExtend 32)

/-- R34: register 0 is 0 for every reader, whatever is in flight for index 0: as an operand in execute, as store data and in
the equality unit. -/
def Obligations.RegisterZeroIsAlwaysZero : Prop :=
  ∀ s : State, s.Inv →
    reg s.bank 0#5 = 0#32 ∧ s.eqInput 0#5 = 0#32 ∧ (s.idex.output.rsIdx = 0#5 → s.opA = 0#32) ∧
    (s.idex.output.rtIdx = 0#5 → s.fwdB = 0#32)

/-! ## Whole-machine properties -/

/-- The invariant of the machine holds after construction, for every capacity. -/
def Obligations.ConstructionMeetsTheInvariant : Prop := ∀ cfg : Config, (State.construct cfg).Inv

/-- Every step keeps the invariant of the machine: canonical stores, `x[0]`, `PC = IDEX.out.next_pc` and aligned (R36, R38),
settled latches, latched operands, control rows of R109 only (so never a read with a write, nor a branch with a jump). -/
def Obligations.EveryStepKeepsTheInvariant : Prop := ∀ s t : State, s.Inv → step s = .next t → t.Inv

/-- What one instruction's cycle leaves alone, for every instruction: the parameters, the reset pin, the instruction store,
every register but the one MEM/WB writes, every data byte but the four EX/MEM stores. That the reset pin is a field which the
cycle keeps is the model's choice (log 2): in the spec it is an input (R140), and R202 has no pin in its state. -/
def Obligations.EveryCycleHasThisFrame : Prop :=
  ∀ (i : Instr) (s : State), ∃ t, exec i s = .next t ∧ t.cfg = s.cfg ∧ t.rst = s.rst ∧ t.imem = s.imem ∧
    (∀ k, ¬ (s.memwb.output.regWrite = true ∧ s.memwb.output.registerNum = k) → reg t.bank k = reg s.bank k) ∧
    (∀ a : Nat, ¬ (s.exmem.output.memWrite = true ∧ s.exmem.output.aluResult.toNat + 4 ≤ s.cfg.dmemBytes ∧
        s.exmem.output.aluResult.toNat ≤ a ∧ a < s.exmem.output.aluResult.toNat + 4) →
      byteAt t.dmem a = byteAt s.dmem a)

/-- R87: no run, from any state, with any program, changes the instruction store. -/
def Obligations.NoRunWritesTheInstructionStore : Prop :=
  ∀ (n : Nat) (s t : State), Host.Core.run Sys2Proof.core n s = .next t → t.imem = s.imem

/-- R73 and R72: a host write of the instruction store is read back at every address of its word and nowhere else, and is
ignored outside the capacity. -/
def Obligations.InstructionStoreWriteThenRead : Prop :=
  ∀ (c : Config) (m : InstrStore) (addr value other : Word),
    imemRead c (imemWrite c m addr value) other =
      (if addr.toNat / 4 < c.imemWords ∧ other.toNat / 4 = addr.toNat / 4 then value else imemRead c m other) ∧
    (c.imemWords ≤ addr.toNat / 4 → imemWrite c m addr value = m ∧ imemRead c m addr = 0#32)

/-- R366: the host's preloads before the first cycle keep the invariant, and each of the four kinds of preload leaves all but
its own store alone. That the actions are functions outside the step, and that a byte preloaded outside the store is ignored,
is the model's choice (log 9). -/
def Obligations.PreloadsKeepTheInvariant : Prop :=
  (∀ (cfg : Config) (actions : List HostAction), (State.boot cfg actions).Inv) ∧
  ∀ (s : State) (k j : RegIdx) (v addr word : Word) (b : Byte) (a : Nat),
    reg (s.hostAct (.setRegister k v)).bank j = (if j = k ∧ k ≠ 0#5 then v else reg s.bank j) ∧
    s.hostAct (.setRegister k v) = { s with bank := (s.hostAct (.setRegister k v)).bank } ∧
    byteAt (s.hostAct (.setByte addr b)).dmem a =
      (if addr.toNat < s.cfg.dmemBytes ∧ a = addr.toNat then b else byteAt s.dmem a) ∧
    s.hostAct (.setByte addr b) = { s with dmem := (s.hostAct (.setByte addr b)).dmem } ∧
    (s.cfg.dmemBytes ≤ addr.toNat → s.hostAct (.setByte addr b) = s) ∧
    s.hostAct (.setWord addr word) = { s with dmem := memWrite s.cfg s.dmem addr word true } ∧
    s.hostAct (.loadWord addr word) = { s with imem := imemWrite s.cfg s.imem addr word }

/-- The input sides and `PC` are written by the cycle and never read by it (R51, R152, R155): states that differ there only
have the same step. -/
def Obligations.InputSidesAreNeverRead : Prop :=
  ∀ s t : State, s.SameOutputSides t → step s = step t

/-- The fields kept for observation only (R41, R43, R45) never influence anything else: runs of any length from states that
agree but for them agree but for them. -/
def Obligations.ObservedFieldsInfluenceNothing : Prop :=
  ∀ (n : Nat) (s t s' t' : State), s.eraseObserved = t.eraseObserved →
    Host.Core.run Sys2Proof.core n s = .next s' → Host.Core.run Sys2Proof.core n t = .next t' →
    s'.eraseObserved = t'.eraseObserved

/-- From zero registers and a zero data store, a program without LW leaves every register and data byte 0 for ever. Leaving LW
out is the model's correction of the remark in R365 (log 7). -/
def Obligations.WithoutLoadsZeroStaysZero : Prop :=
  ∀ (cfg : Config) (program : InstrStore) (n : Nat) (t : State),
    (∀ a : Word, opcodeOf (imemRead cfg program a) ≠ opLw) →
    Host.Core.run Sys2Proof.core n { State.construct cfg with imem := program } = .next t →
    (∀ k, reg t.bank k = 0#32) ∧ ∀ a : Nat, byteAt t.dmem a = 0#8

/-- The remark of R365, that from zero registers and a zero data store every register and data byte stays 0 for ever, for any
program. It is expected to FAIL: the load-use hazard of R383 puts a load's address into a register (log 7). -/
def Obligations.ZeroStaysZeroForEveryProgram : Prop :=
  ∀ (cfg : Config) (program : InstrStore) (n : Nat) (t : State),
    Host.Core.run Sys2Proof.core n { State.construct cfg with imem := program } = .next t →
    (∀ k, reg t.bank k = 0#32) ∧ ∀ a : Nat, byteAt t.dmem a = 0#8

/-- With no LW in the instruction store or in flight, registers, data store and values in flight at zero stay so over every
step (the part of R365's remark that holds, log 7). -/
def Obligations.EveryStepKeepsZeroWithoutLoads : Prop :=
  ∀ s t : State, s.ZeroWithoutLoads → step s = .next t → t.ZeroWithoutLoads

/-- A machine right after construction, loaded with a program without LW, meets that invariant. -/
def Obligations.ConstructionIsZeroWithoutLoads : Prop :=
  ∀ (cfg : Config) (program : InstrStore), (∀ a : Word, opcodeOf (imemRead cfg program a) ≠ opLw) →
    State.ZeroWithoutLoads { State.construct cfg with imem := program }
end

