-- ==== Sys2Proof/Laws/Encoding.lean ====
section
/-! SUPPORT. Where the encoder puts each field: reading a field of a built word gives back what was put there. -/

namespace Sys2Proof

/-! ## R-type words -/

@[simp] theorem opcodeOf_rtypeWord (rs rt rd shamt : RegIdx) (funct : Field6) :
    opcodeOf (rtypeWord rs rt rd shamt funct) = opRtype := by
  simp only [opcodeOf, rtypeWord]; ext i hi; simp only [BitVec.getElem_extractLsb', BitVec.getLsbD_append]; grind

@[simp] theorem rsOf_rtypeWord (rs rt rd shamt : RegIdx) (funct : Field6) :
    rsOf (rtypeWord rs rt rd shamt funct) = rs := by
  simp only [rsOf, rtypeWord]; ext i hi; simp only [BitVec.getElem_extractLsb', BitVec.getLsbD_append]; grind

@[simp] theorem rtOf_rtypeWord (rs rt rd shamt : RegIdx) (funct : Field6) :
    rtOf (rtypeWord rs rt rd shamt funct) = rt := by
  simp only [rtOf, rtypeWord]; ext i hi; simp only [BitVec.getElem_extractLsb', BitVec.getLsbD_append]; grind

@[simp] theorem rdOf_rtypeWord (rs rt rd shamt : RegIdx) (funct : Field6) :
    rdOf (rtypeWord rs rt rd shamt funct) = rd := by
  simp only [rdOf, rtypeWord]; ext i hi; simp only [BitVec.getElem_extractLsb', BitVec.getLsbD_append]; grind

@[simp] theorem shamtOf_rtypeWord (rs rt rd shamt : RegIdx) (funct : Field6) :
    shamtOf (rtypeWord rs rt rd shamt funct) = shamt := by
  simp only [shamtOf, rtypeWord]; ext i hi; simp only [BitVec.getElem_extractLsb', BitVec.getLsbD_append]; grind

@[simp] theorem functOf_rtypeWord (rs rt rd shamt : RegIdx) (funct : Field6) :
    functOf (rtypeWord rs rt rd shamt funct) = funct := by
  simp only [functOf, rtypeWord]; ext i hi; simp only [BitVec.getElem_extractLsb', BitVec.getLsbD_append]; grind

/-! ## I-type words -/

@[simp] theorem opcodeOf_itypeWord (opcode : Field6) (rs rt : RegIdx) (imm : Imm16) :
    opcodeOf (itypeWord opcode rs rt imm) = opcode := by
  simp only [opcodeOf, itypeWord]; ext i hi; simp only [BitVec.getElem_extractLsb', BitVec.getLsbD_append]; grind

@[simp] theorem rsOf_itypeWord (opcode : Field6) (rs rt : RegIdx) (imm : Imm16) :
    rsOf (itypeWord opcode rs rt imm) = rs := by
  simp only [rsOf, itypeWord]; ext i hi; simp only [BitVec.getElem_extractLsb', BitVec.getLsbD_append]; grind

@[simp] theorem rtOf_itypeWord (opcode : Field6) (rs rt : RegIdx) (imm : Imm16) :
    rtOf (itypeWord opcode rs rt imm) = rt := by
  simp only [rtOf, itypeWord]; ext i hi; simp only [BitVec.getElem_extractLsb', BitVec.getLsbD_append]; grind

@[simp] theorem immOf_itypeWord (opcode : Field6) (rs rt : RegIdx) (imm : Imm16) :
    immOf (itypeWord opcode rs rt imm) = imm := by
  simp only [immOf, itypeWord]; ext i hi; simp only [BitVec.getElem_extractLsb', BitVec.getLsbD_append]; grind

/-! ## J-type words -/

@[simp] theorem opcodeOf_jtypeWord (opcode : Field6) (target : Target26) :
    opcodeOf (jtypeWord opcode target) = opcode := by
  simp only [opcodeOf, jtypeWord]; ext i hi; simp only [BitVec.getElem_extractLsb', BitVec.getLsbD_append]; grind

@[simp] theorem targetOf_jtypeWord (opcode : Field6) (target : Target26) :
    targetOf (jtypeWord opcode target) = target := by
  simp only [targetOf, jtypeWord]; ext i hi; simp only [BitVec.getElem_extractLsb', BitVec.getLsbD_append]; grind

end Sys2Proof
end

