-- ==== Sys2Proof/Laws/Store.lean ====
section
/-! SUPPORT. What the sparse stores can do: reading after writing, and that every write keeps the canonical form. -/

namespace Sys2Proof.Machine

@[simp] theorem storeRead_nil {w : Nat} (a : Nat) : storeRead ([] : List (Nat × BitVec w)) a = 0#w := rfl

theorem storeRead_cons {w : Nat} (b : Nat) (u : BitVec w) (m : List (Nat × BitVec w)) (a : Nat) :
    storeRead ((b, u) :: m) a = if a = b then u else storeRead m a := rfl

/-! ## Reading after writing -/

/-- Erasing an entry makes its address read as unlisted and no other address read otherwise. -/
theorem storeRead_storeErase {w : Nat} (m : List (Nat × BitVec w)) (a b : Nat) :
    storeRead (storeErase m a) b = if b = a then 0#w else storeRead m b := by
  induction m with
  | nil => simp [storeErase]
  | cons c rest ih =>
    obtain ⟨d, u⟩ := c
    simp only [storeErase] at ih
    by_cases hd : d = a
    · subst hd
      simp only [storeErase, List.filter_cons, bne_self_eq_false, Bool.false_eq_true, if_false, ih, storeRead_cons]
      split <;> simp_all
    · simp only [storeErase, List.filter_cons, bne_iff_ne, ne_eq, hd, not_false_eq_true, if_true, storeRead_cons, ih]
      by_cases hb : b = d <;> simp_all

/-- Inserting an entry at an address that reads as unlisted. -/
theorem storeRead_storeInsert {w : Nat} (m : List (Nat × BitVec w)) (a b : Nat) (v : BitVec w)
    (h : ∀ c ∈ m, c.1 ≠ a) : storeRead (storeInsert m a v) b = if b = a then v else storeRead m b := by
  induction m with
  | nil => simp [storeInsert, storeRead_cons]
  | cons c rest ih =>
    obtain ⟨d, u⟩ := c
    have hda : d ≠ a := h (d, u) (by simp)
    simp only [storeInsert]
    split
    · simp [storeRead_cons]
    · rw [storeRead_cons, ih fun c hc => h c (by simp [hc]), storeRead_cons]
      by_cases hb : b = d
      · subst hb; simp [hda]
      · simp [hb]

theorem storeErase_addr_ne {w : Nat} (m : List (Nat × BitVec w)) (a : Nat) : ∀ c ∈ storeErase m a, c.1 ≠ a := by
  simp [storeErase]

/-- What a write does, to any store: the address written reads as the value, every other address as before. -/
theorem storeRead_storeWrite {w : Nat} (m : List (Nat × BitVec w)) (a b : Nat) (v : BitVec w) :
    storeRead (storeWrite m a v) b = if b = a then v else storeRead m b := by
  unfold storeWrite
  split
  · rename_i hv
    rw [storeRead_storeErase]
    simp [hv, unlisted]
  · rw [storeRead_storeInsert _ _ _ _ (storeErase_addr_ne m a), storeRead_storeErase]
    split <;> rfl

/-! ## The canonical form -/

theorem storeFrom_cons {w : Nat} {bound lo a : Nat} {v : BitVec w} {m : List (Nat × BitVec w)} :
    storeFrom bound lo ((a, v) :: m) = true ↔
      lo ≤ a ∧ a < bound ∧ v ≠ 0#w ∧ storeFrom bound (a + 1) m = true := by
  simp only [storeFrom, Bool.and_eq_true, decide_eq_true_eq, and_assoc]
  exact Iff.rfl

/-- A store may be taken as starting lower. -/
theorem storeFrom_mono {w : Nat} {bound lo lo' : Nat} {m : List (Nat × BitVec w)} (h : storeFrom bound lo m = true)
    (hl : lo' ≤ lo) : storeFrom bound lo' m = true := by
  cases m with
  | nil => rfl
  | cons c rest =>
    obtain ⟨b, u⟩ := c
    rw [storeFrom_cons] at h ⊢
    exact ⟨by omega, h.2⟩

/-- A canonical store lists nothing below its first address and nothing from its bound on. -/
theorem storeRead_outside {w : Nat} {bound lo : Nat} {m : List (Nat × BitVec w)} (h : storeFrom bound lo m = true)
    {a : Nat} (ha : a < lo ∨ bound ≤ a) : storeRead m a = 0#w := by
  induction m generalizing lo with
  | nil => rfl
  | cons c rest ih =>
    obtain ⟨b, u⟩ := c
    rw [storeFrom_cons] at h
    rw [storeRead_cons, if_neg (by omega)]
    exact ih h.2.2.2 (by omega)

theorem storeFrom_storeErase {w : Nat} {bound lo : Nat} {m : List (Nat × BitVec w)} (h : storeFrom bound lo m = true)
    (a : Nat) : storeFrom bound lo (storeErase m a) = true := by
  induction m generalizing lo with
  | nil => rfl
  | cons c rest ih =>
    obtain ⟨b, u⟩ := c
    rw [storeFrom_cons] at h
    have hr := ih h.2.2.2
    simp only [storeErase] at hr
    by_cases hb : b = a
    · subst hb
      simpa [storeErase] using storeFrom_mono hr (by omega)
    · simp only [storeErase, List.filter_cons, bne_iff_ne, ne_eq, hb, not_false_eq_true, if_true]
      exact storeFrom_cons.2 ⟨h.1, h.2.1, h.2.2.1, hr⟩

theorem storeFrom_storeInsert {w : Nat} {bound lo a : Nat} {v : BitVec w} {m : List (Nat × BitVec w)}
    (h : storeFrom bound lo m = true) (hne : ∀ c ∈ m, c.1 ≠ a) (hl : lo ≤ a) (hb : a < bound) (hv : v ≠ 0#w) :
    storeFrom bound lo (storeInsert m a v) = true := by
  induction m generalizing lo with
  | nil => exact storeFrom_cons.2 ⟨hl, hb, hv, rfl⟩
  | cons c rest ih =>
    obtain ⟨b, u⟩ := c
    rw [storeFrom_cons] at h
    have hba : b ≠ a := hne (b, u) (by simp)
    simp only [storeInsert]
    split
    · exact storeFrom_cons.2 ⟨hl, hb, hv, storeFrom_cons.2 ⟨by omega, h.2⟩⟩
    · exact storeFrom_cons.2 ⟨h.1, h.2.1, h.2.2.1, ih h.2.2.2 (fun c hc => hne c (by simp [hc])) (by omega)⟩

/-- Writing inside the bound keeps the canonical form. -/
theorem storeFrom_storeWrite {w : Nat} {bound a : Nat} {v : BitVec w} {m : List (Nat × BitVec w)}
    (h : storeFrom bound 0 m = true) (hb : a < bound) : storeFrom bound 0 (storeWrite m a v) = true := by
  unfold storeWrite
  split
  · exact storeFrom_storeErase h a
  · exact storeFrom_storeInsert (storeFrom_storeErase h a) (storeErase_addr_ne m a) (by omega) hb (by assumption)

/-- Two canonical stores that read alike at every address are one list. -/
theorem store_ext {w : Nat} {bound lo : Nat} {m n : List (Nat × BitVec w)} (hm : storeFrom bound lo m = true)
    (hn : storeFrom bound lo n = true) (h : ∀ a, storeRead m a = storeRead n a) : m = n := by
  induction m generalizing lo n with
  | nil =>
    cases n with
    | nil => rfl
    | cons d rest' =>
      obtain ⟨b, v⟩ := d
      have hb := (h b).symm
      rw [storeRead_cons, if_pos rfl] at hb
      exact absurd hb (storeFrom_cons.1 hn).2.2.1
  | cons c rest ih =>
    obtain ⟨a, u⟩ := c
    have hm1 := storeFrom_cons.1 hm
    have ha := h a
    rw [storeRead_cons, if_pos rfl] at ha
    cases n with
    | nil => exact absurd ha hm1.2.2.1
    | cons d rest' =>
      obtain ⟨b, v⟩ := d
      have hn1 := storeFrom_cons.1 hn
      have hab : a = b := by
        rcases Nat.lt_trichotomy a b with hlt | heq | hgt
        · rw [storeRead_outside (storeFrom_cons.2 ⟨Nat.le_refl b, hn1.2⟩) (Or.inl hlt)] at ha
          exact absurd ha hm1.2.2.1
        · exact heq
        · have hb := h b
          rw [storeRead_outside (storeFrom_cons.2 ⟨Nat.le_refl a, hm1.2⟩) (Or.inl hgt), storeRead_cons, if_pos rfl] at hb
          exact absurd hb.symm hn1.2.2.1
      subst hab
      rw [storeRead_cons, if_pos rfl] at ha
      subst ha
      refine congrArg _ (ih hm1.2.2.2 hn1.2.2.2 fun k => ?_)
      by_cases hk : k = a
      · subst hk
        rw [storeRead_outside hm1.2.2.2 (Or.inl (by omega)), storeRead_outside hn1.2.2.2 (Or.inl (by omega))]
      · simpa [storeRead_cons, hk] using h k

/-! ## The four bytes of a word -/

/-- What storing a word does to one byte. -/
theorem byteAt_putWordAt (m : Memory) (a b : Nat) (v : Word) :
    byteAt (putWordAt m a v) b = if a ≤ b ∧ b < a + 4 then byteOf v (b - a) else byteAt m b := by
  simp only [byteAt, putWordAt, storeRead_storeWrite]
  by_cases h3 : b = a + 3
  · simp [h3]
  by_cases h2 : b = a + 2
  · simp [h2]
  by_cases h1 : b = a + 1
  · simp [h1]
  by_cases h0 : b = a
  · simp [h0]
  rw [if_neg h3, if_neg h2, if_neg h1, if_neg h0, if_neg (by omega)]

/-- A word is its four bytes. -/
theorem byteOf_append (b3 b2 b1 b0 : Byte) (k : Nat) (hk : k < 4) :
    byteOf (b3 ++ b2 ++ b1 ++ b0 : BitVec 32) k = if k = 0 then b0 else if k = 1 then b1 else if k = 2 then b2 else b3 := by
  have : k = 0 ∨ k = 1 ∨ k = 2 ∨ k = 3 := by omega
  rcases this with rfl | rfl | rfl | rfl <;>
    (simp only [byteOf]; ext i hi; simp only [BitVec.getElem_extractLsb', BitVec.getLsbD_append]; grind)

/-- Byte `k` of the word at `a` is the byte at `a + k` (R78). -/
theorem byteOf_wordAt (m : Memory) (a k : Nat) (hk : k < 4) : byteOf (wordAt m a) k = byteAt m (a + k) := by
  rw [wordAt, byteOf_append _ _ _ _ _ hk]
  have : k = 0 ∨ k = 1 ∨ k = 2 ∨ k = 3 := by omega
  rcases this with rfl | rfl | rfl | rfl <;> rfl

/-- A value is put together again from its bytes. -/
theorem append_byteOf (v : Word) : (byteOf v 3 ++ byteOf v 2 ++ byteOf v 1 ++ byteOf v 0 : BitVec 32) = v := by
  simp only [byteOf]
  ext i hi
  simp only [BitVec.getElem_append, BitVec.getElem_extractLsb']
  grind

/-- A stored word is read back. -/
theorem wordAt_putWordAt_same (m : Memory) (a : Nat) (v : Word) : wordAt (putWordAt m a v) a = v := by
  simp only [wordAt, byteAt_putWordAt]
  simpa using append_byteOf v

/-! ## Every memory operation keeps the canonical form -/

theorem memWrite_wf {c : Config} {m : Memory} (h : Memory.wf c m = true) (addr v : Word) (en : Bool) :
    Memory.wf c (memWrite c m addr v en) = true := by
  unfold memWrite
  split
  · rename_i hw
    simp only [dataInRange, Bool.and_eq_true, decide_eq_true_eq] at hw
    unfold Memory.wf putWordAt
    exact storeFrom_storeWrite (storeFrom_storeWrite (storeFrom_storeWrite (storeFrom_storeWrite h (by omega))
      (by omega)) (by omega)) (by omega)
  · exact h

theorem imemWrite_wf {c : Config} {m : InstrStore} (h : InstrStore.wf c m = true) (addr v : Word) :
    InstrStore.wf c (imemWrite c m addr v) = true := by
  unfold imemWrite
  split
  · exact storeFrom_storeWrite h (by assumption)
  · exact h

/-- Every host action keeps both stores canonical. -/
theorem hostAct_wf {s : State} (hd : Memory.wf s.cfg s.dmem = true) (hi : InstrStore.wf s.cfg s.imem = true)
    (a : HostAction) :
    Memory.wf (s.hostAct a).cfg (s.hostAct a).dmem = true ∧ InstrStore.wf (s.hostAct a).cfg (s.hostAct a).imem = true := by
  cases a with
  | loadWord addr word => exact ⟨hd, imemWrite_wf hi addr word⟩
  | setRegister i v => exact ⟨hd, hi⟩
  | setByte addr v =>
    refine ⟨?_, hi⟩
    show Memory.wf s.cfg (if addr.toNat < s.cfg.dmemBytes then storeWrite s.dmem addr.toNat v else s.dmem) = true
    split
    · exact storeFrom_storeWrite hd (by assumption)
    · exact hd
  | setWord addr v => exact ⟨memWrite_wf hd addr v true, hi⟩

/-- The stores are canonical after construction. -/
theorem construct_wf (c : Config) :
    Memory.wf c (State.construct c).dmem = true ∧ InstrStore.wf c (State.construct c).imem = true := ⟨rfl, rfl⟩

/-- The data store of the reset state is canonical. -/
theorem reset_memory_wf : Memory.wf State.reset.cfg State.reset.dmem = true := rfl

end Sys2Proof.Machine
end

