-- ==== Sys2Proof/Laws/Ops.lean ====
section
/-! SUPPORT. What each shared operation can do, said once: the memory ports, the register bank, the operands. -/

namespace Sys2Proof.Machine

/-! ## Data-store ports (R76, R77) -/

/-- An enabled access in range reads the four bytes; every other read gives 0. -/
theorem memRead_cases (c : Config) (m : Memory) (addr : Word) (en : Bool) :
    (en = true ∧ addr.toNat + 4 ≤ c.dmemBytes ∧ memRead c m addr en = wordAt m addr.toNat) ∨
      (¬ (en = true ∧ addr.toNat + 4 ≤ c.dmemBytes) ∧ memRead c m addr en = 0#32) := by
  by_cases h : en = true ∧ addr.toNat + 4 ≤ c.dmemBytes
  · exact Or.inl ⟨h.1, h.2, by simp [memRead, dataInRange, h.1, h.2]⟩
  · exact Or.inr ⟨h, by simp [memRead, dataInRange, h]⟩

/-- What a write does to every byte. -/
theorem byteAt_memWrite (c : Config) (m : Memory) (addr v : Word) (en : Bool) (a : Nat) :
    byteAt (memWrite c m addr v en) a =
      if (en = true ∧ addr.toNat + 4 ≤ c.dmemBytes) ∧ addr.toNat ≤ a ∧ a < addr.toNat + 4
      then byteOf v (a - addr.toNat) else byteAt m a := by
  by_cases h : en = true ∧ addr.toNat + 4 ≤ c.dmemBytes
  · simp [memWrite, dataInRange, h, byteAt_putWordAt]
  · simp [memWrite, dataInRange, h]

@[simp] theorem memWrite_disabled (c : Config) (m : Memory) (addr v : Word) : memWrite c m addr v false = m := by
  simp [memWrite]

@[simp] theorem memRead_disabled (c : Config) (m : Memory) (addr : Word) : memRead c m addr false = 0#32 := by
  simp [memRead]

/-- An enabled write in range, read at the same address, gives the value back (R79). -/
theorem memRead_memWrite_same (c : Config) (m : Memory) (addr v : Word) (h : addr.toNat + 4 ≤ c.dmemBytes) :
    memRead c (memWrite c m addr v true) addr true = v := by
  simp [memRead, memWrite, dataInRange, h, wordAt_putWordAt_same]

/-! ## Register bank (R31, R32) -/

@[simp] theorem bankRead_zero (b : Bank) : bankRead b 0#5 = 0#32 := rfl

/-- What the write port does to every register. -/
theorem bankRead_bankWrite (b : Bank) (i j : RegIdx) (v : Word) (en : Bool) :
    bankRead (bankWrite b i v en) j = if (en = true ∧ i ≠ 0#5) ∧ j = i then v else bankRead b j := by
  by_cases h : en = true ∧ i ≠ 0#5
  · by_cases hj : j = i
    · subst hj
      simp [bankRead, bankWrite, h]
    · have hne : i.toNat ≠ j.toNat := fun hn => hj (BitVec.eq_of_toNat_eq hn).symm
      simp [bankRead, bankWrite, h, hj, hne]
  · simp [bankWrite, h]

@[simp] theorem bankWrite_disabled (b : Bank) (i : RegIdx) (v : Word) : bankWrite b i v false = b := by
  simp [bankWrite]

@[simp] theorem bankWrite_index_zero (b : Bank) (v : Word) (en : Bool) : bankWrite b 0#5 v en = b := by
  simp [bankWrite]

/-- The write port never touches the entry of register 0 (R32). -/
theorem bankWrite_entry_zero (b : Bank) (i : RegIdx) (v : Word) (en : Bool) : (bankWrite b i v en)[0] = b[0] := by
  by_cases h : en = true ∧ i ≠ 0#5
  · have hne : i.toNat ≠ 0 := fun hn => h.2 (BitVec.eq_of_toNat_eq hn)
    simp [bankWrite, h, hne]
  · simp [bankWrite, h]

/-! ## Forwarding -/

theorem exmemTap_iff (s : State) (i : RegIdx) :
    s.exmemTap i = true ↔ s.exmem.output.regWrite = true ∧ s.exmem.output.registerNum = i ∧ i ≠ 0#5 := by
  simp [State.exmemTap, and_assoc]

theorem memwbTap_iff (s : State) (i : RegIdx) :
    s.memwbTap i = true ↔ s.memwb.output.regWrite = true ∧ s.memwb.output.registerNum = i ∧ i ≠ 0#5 := by
  simp [State.memwbTap, and_assoc]

/-- Index 0 is never a forwarding target (R170). -/
@[simp] theorem forward_zero (s : State) (v : Word) : s.forward 0#5 v = v := by
  simp [State.forward, State.exmemTap, State.memwbTap]

@[simp] theorem eqInput_zero (s : State) : s.eqInput 0#5 = 0#32 := by
  simp [State.eqInput, State.exmemTap, State.decodeRead]

end Sys2Proof.Machine
end

