-- ==== Sys2Proof/Laws/PerInstr.lean ====
section
/-! SUPPORT. The family `OpcodeRow`: the word of every well-formed instruction has the opcode of its row of the opcode table,
and, for a register-type row, its funct; the catch-all rows have none of the opcodes or functs of the rows above them (R105,
R106, R112). -/

namespace Sys2Proof.Laws.OpcodeRow

/-- The word of the instruction lies in its row of the opcode table and in no row of lower priority value. -/
def Statement (i : Instr) : Prop :=
  i.wellFormed = true →
    match i with
    | .add _ _ _ _ => opcodeOf (encode i) = 0x00#6 ∧ functOf (encode i) = 0x20#6
    | .sub _ _ _ _ => opcodeOf (encode i) = 0x00#6 ∧ functOf (encode i) = 0x22#6
    | .and _ _ _ _ => opcodeOf (encode i) = 0x00#6 ∧ functOf (encode i) = 0x24#6
    | .or _ _ _ _ => opcodeOf (encode i) = 0x00#6 ∧ functOf (encode i) = 0x25#6
    | .slt _ _ _ _ => opcodeOf (encode i) = 0x00#6 ∧ functOf (encode i) = 0x2A#6
    | .lw _ _ _ => opcodeOf (encode i) = 0x23#6
    | .sw _ _ _ => opcodeOf (encode i) = 0x2B#6
    | .beq _ _ _ => opcodeOf (encode i) = 0x04#6
    | .j _ => opcodeOf (encode i) = 0x02#6
    | .rtypeUnmappedFunct _ _ _ _ _ => opcodeOf (encode i) = 0x00#6 ∧ functOf (encode i) ∉ mappedFuncts
    | .unmappedOpcode _ _ => opcodeOf (encode i) ∉ mappedOpcodes

theorem add (rs rt rd shamt : RegIdx) : Statement (.add rs rt rd shamt) :=
  fun _ => ⟨opcodeOf_rtypeWord .., functOf_rtypeWord ..⟩

theorem sub (rs rt rd shamt : RegIdx) : Statement (.sub rs rt rd shamt) :=
  fun _ => ⟨opcodeOf_rtypeWord .., functOf_rtypeWord ..⟩

theorem and (rs rt rd shamt : RegIdx) : Statement (.and rs rt rd shamt) :=
  fun _ => ⟨opcodeOf_rtypeWord .., functOf_rtypeWord ..⟩

theorem or (rs rt rd shamt : RegIdx) : Statement (.or rs rt rd shamt) :=
  fun _ => ⟨opcodeOf_rtypeWord .., functOf_rtypeWord ..⟩

theorem slt (rs rt rd shamt : RegIdx) : Statement (.slt rs rt rd shamt) :=
  fun _ => ⟨opcodeOf_rtypeWord .., functOf_rtypeWord ..⟩

theorem lw (rs rt : RegIdx) (imm : Imm16) : Statement (.lw rs rt imm) := fun _ => opcodeOf_itypeWord ..

theorem sw (rs rt : RegIdx) (imm : Imm16) : Statement (.sw rs rt imm) := fun _ => opcodeOf_itypeWord ..

theorem beq (rs rt : RegIdx) (imm : Imm16) : Statement (.beq rs rt imm) := fun _ => opcodeOf_itypeWord ..

theorem j (target : Target26) : Statement (.j target) := fun _ => opcodeOf_jtypeWord ..

theorem rtypeUnmappedFunct (rs rt rd shamt : RegIdx) (funct : Field6) :
    Statement (.rtypeUnmappedFunct rs rt rd shamt funct) := by
  intro h
  refine ⟨opcodeOf_rtypeWord .., ?_⟩
  show functOf (rtypeWord rs rt rd shamt funct) ∉ mappedFuncts
  rw [functOf_rtypeWord]
  simpa [Instr.wellFormed] using h

theorem unmappedOpcode (opcode : Field6) (rest : BitVec 26) : Statement (.unmappedOpcode opcode rest) := by
  intro h
  show opcodeOf (jtypeWord opcode rest) ∉ mappedOpcodes
  rw [opcodeOf_jtypeWord]
  simpa [Instr.wellFormed] using h

end Sys2Proof.Laws.OpcodeRow
end

