-- ==== Sys2Proof/Laws/State.lean ====
section
/-! SUPPORT. One lemma per field per update of the state, each true by unfolding the update, so that no later proof unfolds a
record. -/

namespace Sys2Proof.Machine

@[simp] theorem latched_input {α : Type} (v : α) : (latched v).input = v := rfl
@[simp] theorem latched_output {α : Type} (v : α) : (latched v).output = v := rfl

/-! ## The cycle -/

@[simp] theorem cycle_rst (s : State) (d : Decoded) : (s.cycle d).rst = s.rst := rfl
@[simp] theorem cycle_cfg (s : State) (d : Decoded) : (s.cycle d).cfg = s.cfg := rfl
@[simp] theorem cycle_pc (s : State) (d : Decoded) : (s.cycle d).pc = s.selectedPc d := rfl
@[simp] theorem cycle_ifid (s : State) (d : Decoded) : (s.cycle d).ifid = latched s.fetchStage := rfl
@[simp] theorem cycle_idex (s : State) (d : Decoded) : (s.cycle d).idex = latched (s.decodeStage d) := rfl
@[simp] theorem cycle_exmem (s : State) (d : Decoded) : (s.cycle d).exmem = latched s.executeStage := rfl
@[simp] theorem cycle_memwb (s : State) (d : Decoded) : (s.cycle d).memwb = latched s.memoryStage := rfl
@[simp] theorem cycle_bank (s : State) (d : Decoded) : (s.cycle d).bank = s.bankAfterWriteBack := rfl
@[simp] theorem cycle_dmem (s : State) (d : Decoded) : (s.cycle d).dmem = s.dmemAfterMemory := rfl
@[simp] theorem cycle_imem (s : State) (d : Decoded) : (s.cycle d).imem = s.imem := rfl

/-! ## The reset edge -/

@[simp] theorem resetEdge_rst (s : State) : s.resetEdge.rst = s.rst := rfl
@[simp] theorem resetEdge_cfg (s : State) : s.resetEdge.cfg = s.cfg := rfl
@[simp] theorem resetEdge_pc (s : State) : s.resetEdge.pc = 0#32 := rfl
@[simp] theorem resetEdge_ifid (s : State) : s.resetEdge.ifid = latched IfId.zero := rfl
@[simp] theorem resetEdge_idex (s : State) : s.resetEdge.idex = latched IdEx.zero := rfl
@[simp] theorem resetEdge_exmem (s : State) : s.resetEdge.exmem = latched ExMem.zero := rfl
@[simp] theorem resetEdge_memwb (s : State) : s.resetEdge.memwb = latched MemWb.zero := rfl
@[simp] theorem resetEdge_bank (s : State) : s.resetEdge.bank = s.bank := rfl
@[simp] theorem resetEdge_dmem (s : State) : s.resetEdge.dmem = s.dmem := rfl
@[simp] theorem resetEdge_imem (s : State) : s.resetEdge.imem = s.imem := rfl

/-! ## Construction -/

@[simp] theorem construct_rst (c : Config) : (State.construct c).rst = false := rfl
@[simp] theorem construct_cfg (c : Config) : (State.construct c).cfg = c := rfl
@[simp] theorem construct_pc (c : Config) : (State.construct c).pc = 0#32 := rfl
@[simp] theorem construct_ifid (c : Config) : (State.construct c).ifid = latched IfId.zero := rfl
@[simp] theorem construct_idex (c : Config) : (State.construct c).idex = latched IdEx.zero := rfl
@[simp] theorem construct_exmem (c : Config) : (State.construct c).exmem = latched ExMem.zero := rfl
@[simp] theorem construct_memwb (c : Config) : (State.construct c).memwb = latched MemWb.zero := rfl
@[simp] theorem construct_bank (c : Config) : (State.construct c).bank = Vector.replicate 32 0#32 := rfl
@[simp] theorem construct_dmem (c : Config) : (State.construct c).dmem = [] := rfl
@[simp] theorem construct_imem (c : Config) : (State.construct c).imem = [] := rfl

/-! ## Placing the word that the next step runs -/

@[simp] theorem placeWord_rst (s : State) (w : Word) : (s.placeWord w).rst = false := rfl
@[simp] theorem placeWord_cfg (s : State) (w : Word) : (s.placeWord w).cfg = s.cfg := rfl
@[simp] theorem placeWord_pc (s : State) (w : Word) : (s.placeWord w).pc = s.pc := rfl
@[simp] theorem placeWord_ifid (s : State) (w : Word) : (s.placeWord w).ifid = Latch.mk s.ifid.input (IfId.mk w) := rfl
@[simp] theorem placeWord_idex (s : State) (w : Word) : (s.placeWord w).idex = s.idex := rfl
@[simp] theorem placeWord_exmem (s : State) (w : Word) : (s.placeWord w).exmem = s.exmem := rfl
@[simp] theorem placeWord_memwb (s : State) (w : Word) : (s.placeWord w).memwb = s.memwb := rfl
@[simp] theorem placeWord_bank (s : State) (w : Word) : (s.placeWord w).bank = s.bank := rfl
@[simp] theorem placeWord_dmem (s : State) (w : Word) : (s.placeWord w).dmem = s.dmem := rfl
@[simp] theorem placeWord_imem (s : State) (w : Word) : (s.placeWord w).imem = s.imem := rfl

/-! ## The stages' records -/

@[simp] theorem fetchStage_instr (s : State) :
    s.fetchStage.instr = imemRead s.cfg s.imem s.idex.output.nextPc := rfl
@[simp] theorem decodeStage_nextPc (s : State) (d : Decoded) : (s.decodeStage d).nextPc = s.selectedPc d := rfl
@[simp] theorem decodeStage_regWrite (s : State) (d : Decoded) : (s.decodeStage d).regWrite = d.ctl.regWrite := rfl
@[simp] theorem decodeStage_memRead (s : State) (d : Decoded) : (s.decodeStage d).memRead = d.ctl.memRead := rfl
@[simp] theorem decodeStage_memWrite (s : State) (d : Decoded) : (s.decodeStage d).memWrite = d.ctl.memWrite := rfl
@[simp] theorem decodeStage_memToReg (s : State) (d : Decoded) : (s.decodeStage d).memToReg = d.ctl.memToReg := rfl
@[simp] theorem decodeStage_aluCtl (s : State) (d : Decoded) : (s.decodeStage d).aluCtl = d.aluCtl := rfl
@[simp] theorem decodeStage_aluSrc (s : State) (d : Decoded) : (s.decodeStage d).aluSrc = d.ctl.aluSrc := rfl
@[simp] theorem decodeStage_regDest (s : State) (d : Decoded) : (s.decodeStage d).regDest = d.ctl.regDest := rfl
@[simp] theorem decodeStage_isBranch (s : State) (d : Decoded) : (s.decodeStage d).isBranch = d.ctl.isBranch := rfl
@[simp] theorem decodeStage_isJump (s : State) (d : Decoded) : (s.decodeStage d).isJump = d.ctl.isJump := rfl
@[simp] theorem decodeStage_rsIdx (s : State) (d : Decoded) : (s.decodeStage d).rsIdx = rsOf d.instr := rfl
@[simp] theorem decodeStage_rtIdx (s : State) (d : Decoded) : (s.decodeStage d).rtIdx = rtOf d.instr := rfl
@[simp] theorem decodeStage_rdIdx (s : State) (d : Decoded) : (s.decodeStage d).rdIdx = rdOf d.instr := rfl
@[simp] theorem decodeStage_rsVal (s : State) (d : Decoded) : (s.decodeStage d).rsVal = s.decodeRead (rsOf d.instr) := rfl
@[simp] theorem decodeStage_rtVal (s : State) (d : Decoded) : (s.decodeStage d).rtVal = s.decodeRead (rtOf d.instr) := rfl
@[simp] theorem decodeStage_imm (s : State) (d : Decoded) : (s.decodeStage d).imm = sextImm (immOf d.instr) := rfl
@[simp] theorem decodeStage_instr (s : State) (d : Decoded) : (s.decodeStage d).instr = d.instr := rfl
@[simp] theorem executeStage_regWrite (s : State) : s.executeStage.regWrite = s.idex.output.regWrite := rfl
@[simp] theorem executeStage_memRead (s : State) : s.executeStage.memRead = s.idex.output.memRead := rfl
@[simp] theorem executeStage_memWrite (s : State) : s.executeStage.memWrite = s.idex.output.memWrite := rfl
@[simp] theorem executeStage_memToReg (s : State) : s.executeStage.memToReg = s.idex.output.memToReg := rfl
@[simp] theorem executeStage_aluResult (s : State) : s.executeStage.aluResult = s.aluResult := rfl
@[simp] theorem executeStage_writeData (s : State) : s.executeStage.writeData = s.fwdB := rfl
@[simp] theorem executeStage_registerNum (s : State) : s.executeStage.registerNum = s.dest := rfl
@[simp] theorem executeStage_instr (s : State) : s.executeStage.instr = s.idex.output.instr := rfl
@[simp] theorem memoryStage_regWrite (s : State) : s.memoryStage.regWrite = s.exmem.output.regWrite := rfl
@[simp] theorem memoryStage_registerNum (s : State) : s.memoryStage.registerNum = s.exmem.output.registerNum := rfl
@[simp] theorem memoryStage_regWrData (s : State) : s.memoryStage.regWrData = s.wbValue := rfl
@[simp] theorem memoryStage_instr (s : State) : s.memoryStage.instr = s.exmem.output.instr := rfl

end Sys2Proof.Machine
end

