-- ==== Sys2Proof/Laws/Step.lean ====
section
/-! SUPPORT. What a step can do, said once: every meaning is one cycle with what its instruction gives the decode stage, and a
step is that cycle or the reset edge. -/

namespace Sys2Proof.Machine

/-- The ALU code and the control signals of an instruction, with its word: what its meaning gives the decode stage. -/
def issued : Instr → Decoded
  | .add rs rt rd shamt => { instr := encode (.add rs rt rd shamt), aluCtl := aluAdd, ctl := Control.rtype }
  | .sub rs rt rd shamt => { instr := encode (.sub rs rt rd shamt), aluCtl := aluSub, ctl := Control.rtype }
  | .and rs rt rd shamt => { instr := encode (.and rs rt rd shamt), aluCtl := aluAnd, ctl := Control.rtype }
  | .or rs rt rd shamt => { instr := encode (.or rs rt rd shamt), aluCtl := aluOr, ctl := Control.rtype }
  | .slt rs rt rd shamt => { instr := encode (.slt rs rt rd shamt), aluCtl := aluSlt, ctl := Control.rtype }
  | .lw rs rt imm => { instr := encode (.lw rs rt imm), aluCtl := aluAdd, ctl := Control.lw }
  | .sw rs rt imm => { instr := encode (.sw rs rt imm), aluCtl := aluAdd, ctl := Control.sw }
  | .beq rs rt imm => { instr := encode (.beq rs rt imm), aluCtl := aluSub, ctl := Control.beq }
  | .j target => { instr := encode (.j target), aluCtl := aluInvalid, ctl := Control.jump }
  | .rtypeUnmappedFunct rs rt rd shamt funct =>
    { instr := encode (.rtypeUnmappedFunct rs rt rd shamt funct), aluCtl := aluInvalid, ctl := Control.rtype }
  | .unmappedOpcode opcode rest =>
    { instr := encode (.unmappedOpcode opcode rest), aluCtl := aluInvalid, ctl := Control.none }

/-- Every meaning is one cycle. -/
theorem exec_eq_cycle (i : Instr) (s : State) : exec i s = .next (s.cycle (issued i)) := by
  cases i <;> rfl

@[simp] theorem issued_instr (i : Instr) : (issued i).instr = encode i := by cases i <;> rfl

/-- The step with the reset pin released. -/
theorem step_of_released {s : State} (h : s.rst = false) :
    step s = .next (s.cycle (issued (decode s.ifid.output.instr))) := by
  simp [step, h, exec_eq_cycle]

/-- The step with the reset pin set. -/
theorem step_of_reset {s : State} (h : s.rst = true) : step s = .next s.resetEdge := by
  simp [step, h]

/-- What a step can do: the reset edge, or the cycle of the decoded word. -/
theorem step_cases {s t : State} (h : step s = .next t) :
    (s.rst = true ∧ t = s.resetEdge) ∨ (s.rst = false ∧ t = s.cycle (issued (decode s.ifid.output.instr))) := by
  cases hr : s.rst with
  | true => rw [step_of_reset hr] at h; exact Or.inl ⟨rfl, (Host.Outcome.next.inj h).symm⟩
  | false => rw [step_of_released hr] at h; exact Or.inr ⟨rfl, (Host.Outcome.next.inj h).symm⟩

/-- The ALU codes a meaning can give are the six of R108 that decode produces. -/
theorem issued_aluCtl_mem (i : Instr) :
    (issued i).aluCtl ∈ [aluAnd, aluOr, aluAdd, aluSub, aluSlt, aluInvalid] := by
  cases i <;> simp [issued]

/-- The control signals a meaning can give are the rows of R109. -/
theorem issued_ctl_mem (i : Instr) :
    (issued i).ctl ∈ [Control.none, Control.rtype, Control.lw, Control.sw, Control.beq, Control.jump] := by
  cases i <;> simp [issued]

/-! ## Running -/

theorem run_zero (s : State) : Host.Core.run Sys2Proof.core 0 s = .next s := rfl

/-- One more edge in front of a run. -/
theorem run_succ_of_step {s t : State} (n : Nat) (h : step s = .next t) :
    Host.Core.run Sys2Proof.core (n + 1) s = Host.Core.run Sys2Proof.core n t := by
  have h' : Sys2Proof.core.step s = .next t := h
  simp only [Host.Core.run, h']

end Sys2Proof.Machine
end

