-- ==== Sys2Proof/Tests/Slice0.lean ====
section
/-! SUPPORT. Tests on fixed values, each closed by evaluation. The expected values are those of 95_test_vectors.md (the entry is
named) or of the rule named; words are written out field by field from R102, R105 and R106. The last part shows, for each
statement with hypotheses, a concrete state and operands that meet them. -/

namespace Sys2Proof.Tests

open Sys2Proof Sys2Proof.Machine

/-! ## Helpers -/

/-- The next state, and the given state where there is none. -/
def after (s : State) : State :=
  match step s with
  | .next t => t
  | .fault _ => s
  | .refused _ => s

/-- The reset state with some registers preloaded. -/
def withRegs (l : List (RegIdx × Word)) : State := (l.map fun p => HostAction.setRegister p.1 p.2).foldl State.hostAct State.reset

/-- One step with the given word in decode, from the given registers. -/
def issue (w : Nat) (l : List (RegIdx × Word)) : State := after ((withRegs l).withFetchWord 32 w)

/-- The registers of L2-1. -/
def l21 : List (RegIdx × Word) := [(1#5, 0xFFFFFFFF#32), (2#5, 1#32)]

/-- `lw $1, 100($2)` in ID/EX, decoded with `$2` at 5. -/
def loadInIdEx : IdEx :=
  { IdEx.zero with
    nextPc := 0x10#32
    regWrite := true
    memRead := true
    memToReg := true
    aluCtl := aluAdd
    aluSrc := true
    rsIdx := 2#5
    rtIdx := 1#5
    rsVal := 5#32
    imm := 0x64#32
    instr := 0x8C410064#32 }

/-- A machine in the middle of a program: that load in ID/EX, an addition to `$3` in EX/MEM, a write of `$4` in MEM/WB, and a
word of the test's choice in IF/ID. -/
def busy (w : Word) : State :=
  { withRegs [(2#5, 5#32)] with
    pc := 0x10#32
    ifid := latched (IfId.mk w)
    idex := latched loadInIdEx
    exmem := latched { ExMem.zero with regWrite := true, aluResult := 7#32, registerNum := 3#5, instr := 0x00421820#32 }
    memwb := latched { MemWb.zero with regWrite := true, registerNum := 4#5, regWrData := 9#32 } }

/-- A store to the last word of the data store in EX/MEM. -/
def storing : State :=
  { State.reset with
    exmem := latched { ExMem.zero with memWrite := true, aluResult := 2044#32, writeData := 0x80000001#32 } }

/-! ## WellFormed refuses what no word decodes to (R110, R112) -/

theorem test_refuses_unmapped_funct_add : (Instr.rtypeUnmappedFunct 1#5 2#5 3#5 0#5 0x20#6).wellFormed = false := by decide
theorem test_refuses_unmapped_funct_sub : (Instr.rtypeUnmappedFunct 1#5 2#5 3#5 0#5 0x22#6).wellFormed = false := by decide
theorem test_refuses_unmapped_funct_and : (Instr.rtypeUnmappedFunct 1#5 2#5 3#5 0#5 0x24#6).wellFormed = false := by decide
theorem test_refuses_unmapped_funct_or : (Instr.rtypeUnmappedFunct 1#5 2#5 3#5 0#5 0x25#6).wellFormed = false := by decide
theorem test_refuses_unmapped_funct_slt : (Instr.rtypeUnmappedFunct 1#5 2#5 3#5 0#5 0x2A#6).wellFormed = false := by decide
theorem test_refuses_unmapped_opcode_rtype : (Instr.unmappedOpcode 0x00#6 0#26).wellFormed = false := by decide
theorem test_refuses_unmapped_opcode_j : (Instr.unmappedOpcode 0x02#6 0#26).wellFormed = false := by decide
theorem test_refuses_unmapped_opcode_beq : (Instr.unmappedOpcode 0x04#6 0#26).wellFormed = false := by decide
theorem test_refuses_unmapped_opcode_lw : (Instr.unmappedOpcode 0x23#6 0#26).wellFormed = false := by decide
theorem test_refuses_unmapped_opcode_sw : (Instr.unmappedOpcode 0x2B#6 0#26).wellFormed = false := by decide

/-! ## Decoding: words written out from R102 with the numbers of R105 and R106 -/

theorem test_decode_add : decode 0b000000_00001_00010_00011_00000_100000#32 = .add 1#5 2#5 3#5 0#5 := by decide
theorem test_decode_sub : decode 0b000000_00011_00001_00100_00000_100010#32 = .sub 3#5 1#5 4#5 0#5 := by decide
theorem test_decode_and : decode 0b000000_00011_00100_00101_00000_100100#32 = .and 3#5 4#5 5#5 0#5 := by decide
theorem test_decode_or : decode 0b000000_00011_00101_00110_00000_100101#32 = .or 3#5 5#5 6#5 0#5 := by decide
theorem test_decode_slt : decode 0b000000_00001_00010_00111_00000_101010#32 = .slt 1#5 2#5 7#5 0#5 := by decide
theorem test_decode_lw : decode 0b100011_00000_00101_0000000001100100#32 = .lw 0#5 5#5 100#16 := by decide
theorem test_decode_sw : decode 0b101011_00011_00110_1111111111111100#32 = .sw 3#5 6#5 0xFFFC#16 := by decide
theorem test_decode_beq : decode 0b000100_00001_00000_0000000000000100#32 = .beq 1#5 0#5 4#16 := by decide
theorem test_decode_j : decode 0b000010_10000000000000000000000001#32 = .j 0x2000001#26 := by decide
theorem test_decode_unmapped_funct :
    decode 0b000000_00000_00001_00011_00010_000000#32 = .rtypeUnmappedFunct 0#5 1#5 3#5 2#5 0#6 := by decide
theorem test_decode_unmapped_opcode : decode 0b001000_00001_00001_0000000000000001#32 = .unmappedOpcode 0x08#6 0x0210001#26 := by
  decide

/-- Every bit of `shamt` is ignored by the choice of instruction (R110, D10) and kept in the term. -/
theorem test_decode_shamt : decode 0b000000_11111_00001_10000_11111_100000#32 = .add 31#5 1#5 16#5 31#5 := by decide
theorem test_encode_lw : encode (.lw 0#5 5#5 100#16) = 0x8C050064#32 := by decide
theorem test_encode_sub : encode (.sub 3#5 1#5 4#5 0#5) = 0x00612022#32 := by decide
theorem test_encode_j : encode (.j 4#26) = 0x08000004#32 := by decide

/-- The decoder on bits numbered as the table numbers them, and its refusal of more than a word (R100). -/
theorem test_table_word : decodeTableWord 32 0x10200004 = some (.beq 1#5 0#5 4#16) := by decide
theorem test_table_word_short : decodeTableWord 16 0xFFFF0820 = some (.add 0#5 0#5 1#5 0#5) := by decide
theorem test_table_word_wide : decodeTableWord 40 0x00221820 = none := by decide

/-- The very next step after placing a word runs it: the word of L1-1 reaches ID/EX with its control row (R109). -/
theorem test_placed_word_runs :
    (issue 0x00221820 []).idex.output.instr = 0x00221820#32 ∧ (issue 0x00221820 []).idex.output.control = Control.rtype := by
  decide

/-! ## Decode tables (L2-2) -/

theorem test_decode_tables_nop : decodeByTables 0#32 = { instr := 0#32, aluCtl := 0xF#4, ctl := Control.rtype } := by decide
theorem test_decode_tables_sw :
    decodeByTables 0xAC66FFFC#32 = { instr := 0xAC66FFFC#32, aluCtl := 0x2#4, ctl := Control.sw } ∧
      sextImm (immOf 0xAC66FFFC#32) = 0xFFFFFFFC#32 := by decide

/-! ## Instructions: what execute computes after the decode step (L2-1 unless named otherwise) -/

theorem test_add_wraps : (issue 0x00221820 l21).executeStage.aluResult = 0#32 := by decide
theorem test_add_destination : (issue 0x00221820 l21).executeStage.registerNum = 3#5 := by decide
theorem test_sub_borrows : (issue 0x00022022 l21).executeStage.aluResult = 0xFFFFFFFF#32 := by decide
theorem test_sub_same : (issue 0x00423822 l21).executeStage.aluResult = 0#32 := by decide
theorem test_and : (issue 0x00222824 l21).executeStage.aluResult = 1#32 := by decide
theorem test_or : (issue 0x00223025 l21).executeStage.aluResult = 0xFFFFFFFF#32 := by decide
theorem test_slt_unsigned_not_less : (issue 0x0022182A l21).executeStage.aluResult = 0#32 := by decide
theorem test_slt_unsigned_less : (issue 0x0041202A l21).executeStage.aluResult = 1#32 := by decide
theorem test_alu_nor : alu aluNor 0x0000000F#32 0x000000F0#32 = 0xFFFFFF00#32 := by decide
theorem test_alu_signed_order : alu aluSlt 0x80000000#32 0x7FFFFFFF#32 = 0#32 := by decide

/-- R260, R103: base plus the sign-extended displacement -4. -/
theorem test_lw_address : (issue 0x8C65FFFC [(3#5, 0x70#32)]).executeStage.aluResult = 0x6C#32 := by decide
theorem test_lw_destination : (issue 0x8C65FFFC [(3#5, 0x70#32)]).executeStage.registerNum = 5#5 := by decide
theorem test_sw_data : (issue 0xAC66FFFC [(3#5, 0x70#32), (6#5, 0x22446688#32)]).executeStage.writeData = 0x22446688#32 := by decide

/-- L1-8: the last word of the data store takes its four bytes, little-endian. -/
theorem test_sw_bytes : (after storing).dmem = [(2044, 0x01#8), (2047, 0x80#8)] := by decide

/-- L1-3: a taken BEQ decoded with `pc = 4` selects 0x14; L1-7's untaken one selects `pc + 4`. -/
theorem test_beq_taken :
    (after { (withRegs []).withFetchWord 32 0x10000003 with idex := latched { IdEx.zero with nextPc := 4#32 } }).pc = 0x14#32 := by
  decide
theorem test_beq_not_taken : (issue 0x10220005 [(1#5, 5#32), (2#5, 6#32)]).pc = 4#32 := by decide

/-- R104: the jump target's upper bits are those of `pc + 4`. -/
theorem test_j_region :
    (after { (withRegs []).withFetchWord 32 0x08000040 with idex := latched { IdEx.zero with nextPc := 0x1FFFFFFC#32 } }).pc =
      0x20000100#32 := by decide

/-- L1-9. -/
theorem test_jump_priority : nextPcMux 0x100#32 0x10#32 0x40#26 true true true = 0x100#32 := by decide
theorem test_unmapped_funct_zero : (issue 0x00221800 l21).executeStage.aluResult = 0#32 ∧
    (issue 0x00221800 l21).executeStage.regWrite = true := by decide
theorem test_unmapped_opcode_no_write : (issue 0x20210001 l21).idex.output.control = Control.none := by decide

/-! ## Stages -/

/-- R164, R196: the decode stage reads what write-back writes in the same cycle. -/
theorem test_decode_reads_after_write_back : (after (busy 0x00801020#32)).idex.output.rsVal = 9#32 := by decide

/-- R165: the equality unit takes the ALU result of the instruction in EX/MEM. -/
theorem test_equality_tap : (busy 0#32).eqInput 3#5 = 7#32 := by decide

/-- R81: the last word in range, and the first address out of range. -/
theorem test_load_range :
    memRead Config.standard [(2047, 0x80#8)] 2044#32 true = 0x80000000#32 ∧
      memRead Config.standard [(2047, 0x80#8)] 2045#32 true = 0#32 := by decide

/-- R78, R80: little-endian, at an address that is not a multiple of 4. -/
theorem test_little_endian_unaligned : memRead Config.standard [(101, 0x11#8), (102, 0x22#8)] 101#32 true = 0x2211#32 := by decide

/-- R86, R77: a store near the top of the address space does not wrap. -/
theorem test_store_does_not_wrap : memWrite Config.standard [] 0xFFFFFFFE#32 0xFFFFFFFF#32 true = [] := by decide

/-- R32: a preload of register 0 is discarded. -/
theorem test_register_zero : (withRegs [(0#5, 7#32)]).bank = State.reset.bank := by decide

/-- R72: the last word of the instruction store, and the first address past it. -/
theorem test_fetch_range :
    imemRead Config.standard [(511, 5#32)] 2047#32 = 5#32 ∧ imemRead Config.standard [(511, 5#32)] 2048#32 = 0#32 := by decide

/-- The flat datapath agrees with the step on a busy machine. -/
theorem test_datapath_agrees : after (busy 0x00612022#32) = (busy 0x00612022#32).datapathCycle := by decide

/-- R371: the observation before the first cycle shows the word at address 0 in the fetch stage. -/
theorem test_observe_fetch_word : (State.boot Config.standard [.loadWord 0#32 0x00221820#32]).observe.fetchWord = 0x00221820#32 := by
  decide

/-- R140: the instruction-store port carries ID/EX's next address. -/
theorem test_ports_imem_addr : (busy 0#32).ports.imemAddr = 0x10#32 ∧ (busy 0#32).ports.rfWaddr = 4#5 := by decide

/-! ## Witnesses: the hypotheses of the statements hold together somewhere -/

theorem test_witness_DecodeOfEncode :
    (Instr.rtypeUnmappedFunct 1#5 2#5 3#5 4#5 0x3F#6).wellFormed = true ∧ (Instr.unmappedOpcode 0x3F#6 0x3FFFFFF#26).wellFormed = true ∧
      (Instr.add 31#5 31#5 31#5 31#5).wellFormed = true := by decide

theorem test_witness_EveryWordIsOneInstruction :
    (Instr.unmappedOpcode 0x3F#6 0x3FFFFFF#26).wellFormed = true ∧ encode (.unmappedOpcode 0x3F#6 0x3FFFFFF#26) = 0xFFFFFFFF#32 := by
  decide

theorem test_witness_StepRunsDecodedWord :
    (busy 0x00612022#32).rst = false ∧ (Instr.sub 3#5 1#5 4#5 0#5).wellFormed = true ∧
      decode (busy 0x00612022#32).ifid.output.instr = .sub 3#5 1#5 4#5 0#5 := by decide

theorem test_witness_WordAtPcRunsInTheNextStep : (busy 0#32).rst = false ∧ (busy 0#32).PcAgrees := by decide
theorem test_witness_StepIsTheDatapathCycle : (busy 0#32).rst = false := by decide
theorem test_witness_EdgeLoadsLatchesAndPc : (busy 0#32).rst = false := by decide

/-- Inside the instruction store and past it. -/
theorem test_witness_FetchStageReadsInstructionStore :
    (busy 0#32).rst = false ∧ (busy 0#32).idex.output.nextPc.toNat / 4 < (busy 0#32).cfg.imemWords ∧
      ({ busy 0#32 with idex := latched { IdEx.zero with nextPc := 2048#32 } } : State).rst = false ∧
      ¬ ({ busy 0#32 with idex := latched { IdEx.zero with nextPc := 2048#32 } } : State).idex.output.nextPc.toNat / 4 <
        (busy 0#32).cfg.imemWords := by decide

theorem test_witness_WriteBackLandsBeforeDecodeReads :
    (busy 0#32).rst = false ∧ (busy 0#32).memwb.output.regWrite = true ∧ (busy 0#32).memwb.output.registerNum = 4#5 := by decide
theorem test_witness_EqualityUnitAndPcMux :
    (busy 0x10620001#32).rst = false ∧ (busy 0x10620001#32).exmem.output.regWrite = true ∧
      (busy 0x10620001#32).exmem.output.registerNum = rsOf (busy 0x10620001#32).ifid.output.instr := by decide
theorem test_witness_ExecuteStageForwardsAndComputes : (busy 0#32).rst = false ∧ (busy 0#32).idex.output.aluSrc = true := by decide
theorem test_witness_MemoryStageReadsWritesAndPasses : storing.rst = false ∧ storing.exmem.output.memWrite = true := by decide

theorem test_witness_AluFollowsItsTable :
    (0x3#4 : AluCode) ∉ [0x0#4, 0x1#4, 0x2#4, 0x6#4, 0x7#4, 0xC#4] ∧ (0xF#4 : AluCode) ∉ [0x0#4, 0x1#4, 0x2#4, 0x6#4, 0x7#4, 0xC#4] := by
  decide

theorem test_witness_ResetZeroesTheCore : ({ busy 0x00612022#32 with rst := true } : State).rst = true := by decide

theorem test_witness_AddAndSubWriteTheirResults :
    0x00221820#32 &&& 0xFC00003F#32 = 0x00000020#32 ∧ 0x00612022#32 &&& 0xFC00003F#32 = 0x00000022#32 ∧ (busy 0#32).rst = false := by
  decide
theorem test_witness_AndAndOrWriteTheirResults :
    0x00642824#32 &&& 0xFC00003F#32 = 0x00000024#32 ∧ 0x00653025#32 &&& 0xFC00003F#32 = 0x00000025#32 ∧ (busy 0#32).rst = false := by
  decide
theorem test_witness_SltWritesTheUnsignedComparison :
    0x0022382A#32 &&& 0xFC00003F#32 = 0x0000002A#32 ∧ (busy 0#32).rst = false := by decide
theorem test_witness_UnmappedFunctWritesZero :
    0x00011880#32 &&& 0xFC000000#32 = 0#32 ∧ functOf 0x00011880#32 ∉ mappedFuncts ∧ (busy 0#32).rst = false ∧
      (0x21#6 : Field6) ∉ mappedFuncts ∧ (0x00#6 : Field6) ∉ mappedFuncts := by decide
theorem test_witness_LwLoadsTheWord : 0x8C050064#32 &&& 0xFC000000#32 = 0x8C000000#32 ∧ (busy 0#32).rst = false := by decide
theorem test_witness_SwStoresTheWord : 0xAC66FFFC#32 &&& 0xFC000000#32 = 0xAC000000#32 ∧ (busy 0#32).rst = false := by decide

/-- The last address in range with its last byte, and the first out of range. -/
theorem test_witness_DataReadIsLittleEndian :
    4 ≤ Config.standard.dmemBytes ∧ (2044#32).toNat ≤ Config.standard.dmemBytes - 4 ∧ 3 < 4 ∧
      (2045#32).toNat > Config.standard.dmemBytes - 4 := by decide
theorem test_witness_DataWriteTouchesFourBytes :
    4 ≤ Config.standard.dmemBytes ∧ (2044#32).toNat ≤ Config.standard.dmemBytes - 4 ∧ (2044#32).toNat ≤ 2047 ∧ 2047 < (2044#32).toNat + 4 := by
  decide

/-- The state in which a store to address 2044 is decoded, then the load of it. -/
theorem test_witness_LoadDirectlyAfterStoreSeesIt :
    State.reset.rst = false ∧
      (let s1 := issue 0xAC0207FC []
       let s2 := after (s1.placeWord 0x8C0307FC#32)
       s2.opA + (2044#16).signExtend 32 = s1.opA + (2044#16).signExtend 32 ∧
         (s1.opA + (2044#16).signExtend 32).toNat + 4 ≤ State.reset.cfg.dmemBytes) := by decide

theorem test_witness_BeqSelectsItsTarget : 0x10200004#32 &&& 0xFC000000#32 = 0x10000000#32 ∧ (busy 0#32).rst = false := by decide
theorem test_witness_JSelectsItsTarget : 0x08000004#32 &&& 0xFC000000#32 = 0x08000000#32 ∧ (busy 0#32).rst = false := by decide
theorem test_witness_UnmappedOpcodeHasNoEffect :
    opcodeOf 0x20210001#32 ∉ mappedOpcodes ∧ (busy 0#32).rst = false ∧ (0x3F#6 : Field6) ∉ mappedOpcodes := by decide
theorem test_witness_TargetsAndTheDelaySlot : (busy 0#32).rst = false ∧ (busy 0#32).idex.output.nextPc = 0xC#32 + 4#32 := by decide
theorem test_witness_TransferInADelaySlot : (busy 0#32).rst = false := by decide
theorem test_witness_JumpHasPriorityOverBranch :
    (busy 0x08000004#32).rst = false ∧ ∃ t, step (busy 0x08000004#32) = .next t := ⟨rfl, _, rfl⟩

/-- A program of one ADD at address 0 holds neither BEQ nor J nor LW, and it runs. -/
theorem test_program_of_one_add (a : Word) :
    opcodeOf (imemRead Config.standard [(0, 0x00221820#32)] a) = opRtype := by
  simp only [imemRead, storeRead]
  split
  · split <;> decide
  · decide

theorem test_witness_StraightLineAdvancesByFour :
    ∃ s t : State, s.rst = false ∧ (∀ a : Word, opcodeOf (imemRead s.cfg s.imem a) ∉ [opBeq, opJ]) ∧
      opcodeOf s.ifid.output.instr ∉ [opBeq, opJ] ∧ Host.Core.run Sys2Proof.core 1 s = .next t :=
  ⟨{ State.reset with imem := [(0, 0x00221820#32)] }, _, rfl,
    fun a h => by
      have hne : opRtype ∉ [opBeq, opJ] := by decide
      exact hne (test_program_of_one_add a ▸ h),
    by decide, rfl⟩

/-- Each of the three ways to meet the third hypothesis: no load before; a load of `$0`; a load of a register not read. -/
theorem test_witness_EveryInstructionCommitsAsIfAlone :
    (busy 0#32).rst = false ∧ (Instr.add 2#5 3#5 4#5 0#5).wellFormed = true ∧ (busy 0#32).idex.output.memToReg = true ∧
      (busy 0#32).dest = 1#5 ∧ (busy 0#32).dest ∉ executeSources (.add 2#5 3#5 4#5 0#5) ∧
      State.reset.idex.output.memToReg = false ∧ State.reset.dest = 0#5 := by decide

/-- `$3` is written by the addition in EX/MEM, `$2` by nobody. -/
theorem test_witness_BranchDecidesOnCommittedValues :
    (busy 0#32).rst = false ∧ ∀ r ∈ [2#5, 3#5], r ≠ 0#5 →
      ¬ ((busy 0#32).idex.output.regWrite = true ∧ (busy 0#32).dest = r) ∧
      ¬ ((busy 0#32).exmem.output.regWrite = true ∧ (busy 0#32).exmem.output.registerNum = r ∧
        (busy 0#32).exmem.output.memToReg = true) := by decide

/-- L1-4's program: the load in decode, its two consumers behind it. -/
theorem test_witness_LoadUseGetsTheAddress :
    (let s1 := after (({ State.reset with imem := [(0, 0x00A53020#32), (1, 0x00A53820#32)] } : State).placeWord 0x8C050064#32)
     let s2 := after s1
     s1.rst = false ∧ rsOf s1.ifid.output.instr = 5#5 ∧ rtOf s1.ifid.output.instr = 5#5 ∧
       ¬ (s2.idex.output.regWrite = true ∧ s2.dest = 5#5) ∧ rsOf s2.ifid.output.instr = 5#5 ∧ rtOf s2.ifid.output.instr = 5#5) := by
  decide

/-- A producer of the first operand (an ADD), of the second (a LW), and a BEQ with `$0` behind a NOP in EX/MEM, which has
`regWrite` set for index 0 (R302). -/
theorem test_witness_BranchAfterProducerIsStale :
    State.reset.rst = false ∧
      (issue 0x00430820 []).idex.output.regWrite = true ∧ (issue 0x00430820 []).dest = 1#5 ∧
      (issue 0x8C040004 []).idex.output.regWrite = true ∧ (issue 0x8C040004 []).dest = 4#5 ∧
      (let s1 := after ((issue 0 []).placeWord 0x00430820#32)
       s1.exmem.output.regWrite = true ∧ s1.exmem.output.registerNum = 0#5) := by decide

/-- L2-4's first row: the ADD of 3 and 4 to `$1` is in execute, so `beq $1, $4, 2` sees 0 against 7 and falls through. -/
theorem test_branch_after_producer :
    (after ((issue 0x00430820 [(2#5, 3#32), (3#5, 4#32), (4#5, 7#32)]).placeWord 0x10240002#32)).pc = 8#32 := by decide

theorem test_witness_BranchAfterLoadComparesTheAddress : (busy 0#32).rst = false ∧ (1#5 : RegIdx) ≠ 0#5 ∧ (2#5 : RegIdx) ≠ 1#5 := by decide

/-- Byte 3 of the last word in range; and a store whose base is the loaded register. -/
theorem test_witness_StoreAfterLoadStoresTheAddress :
    State.reset.rst = false ∧ (1#5 : RegIdx) ≠ 0#5 ∧
      (let s2 := after ((issue 0x8C010004 []).placeWord 0xAC0107FC#32)
       3 < 4 ∧ (s2.opA + (2044#16).signExtend 32).toNat + 4 ≤ State.reset.cfg.dmemBytes) ∧
      (let s2 := after ((issue 0x8C010004 []).placeWord 0xAC210000#32)
       s2.idex.output.rsIdx = 1#5) := by decide

theorem test_construction_meets_the_invariant : State.reset.Inv := by decide
theorem test_witness_RegisterZeroIsAlwaysZero :
    State.reset.Inv ∧ State.reset.idex.output.rsIdx = 0#5 ∧ State.reset.idex.output.rtIdx = 0#5 := by decide
theorem test_witness_EveryStepKeepsTheInvariant : State.reset.Inv ∧ ∃ t, step State.reset = .next t :=
  ⟨test_construction_meets_the_invariant, _, rfl⟩

/-- A register that MEM/WB does not write, and the byte after the four that EX/MEM stores. -/
theorem test_witness_EveryCycleHasThisFrame :
    ¬ ((busy 0#32).memwb.output.regWrite = true ∧ (busy 0#32).memwb.output.registerNum = 5#5) ∧
      storing.exmem.output.memWrite = true ∧
      ¬ (storing.exmem.output.aluResult.toNat ≤ 2048 ∧ 2048 < storing.exmem.output.aluResult.toNat + 4) := by decide
theorem test_witness_NoRunWritesTheInstructionStore : ∃ t, Host.Core.run Sys2Proof.core 1 (busy 0x00612022#32) = .next t := ⟨_, rfl⟩

/-- The last word of the store, read at another byte of it; and the first address past it. -/
theorem test_witness_InstructionStoreWriteThenRead :
    (2044#32).toNat / 4 < Config.standard.imemWords ∧ (2047#32).toNat / 4 = (2044#32).toNat / 4 ∧
      Config.standard.imemWords ≤ (2048#32).toNat / 4 := by decide
/-- The last byte of the data store, and the first address past it. -/
theorem test_witness_PreloadsKeepTheInvariant :
    (2047#32).toNat < State.reset.cfg.dmemBytes ∧ State.reset.cfg.dmemBytes ≤ (2048#32).toNat ∧
      (State.reset.hostAct (.setByte 2047#32 0x80#8)).dmem = [(2047, 0x80#8)] := by decide
theorem test_witness_InputSidesAreNeverRead :
    (busy 0#32).SameOutputSides
      { busy 0#32 with pc := 0#32, idex := { input := IdEx.zero, output := (busy 0#32).idex.output } } := by decide
theorem test_witness_ObservedFieldsInfluenceNothing :
    State.reset.eraseObserved =
        ({ State.reset with idex := latched { IdEx.zero with isJump := true, instr := 0x08000004#32 } } : State).eraseObserved ∧
      (∃ t, Host.Core.run Sys2Proof.core 1 State.reset = .next t) ∧
      ∃ t, Host.Core.run Sys2Proof.core 1
        { State.reset with idex := latched { IdEx.zero with isJump := true, instr := 0x08000004#32 } } = .next t :=
  ⟨by decide, ⟨_, rfl⟩, ⟨_, rfl⟩⟩
theorem test_no_load_in_program (a : Word) : opcodeOf (imemRead Config.standard [(0, 0x00221820#32)] a) ≠ opLw := fun h => by
  have hne : opRtype ≠ opLw := by decide
  exact hne ((test_program_of_one_add a).symm.trans h)
theorem test_witness_WithoutLoadsZeroStaysZero :
    ∃ program : InstrStore, (∀ a : Word, opcodeOf (imemRead Config.standard program a) ≠ opLw) ∧
      ∃ t, Host.Core.run Sys2Proof.core 1 { State.construct Config.standard with imem := program } = .next t :=
  ⟨_, test_no_load_in_program, _, rfl⟩
theorem test_witness_ConstructionIsZeroWithoutLoads :
    ∃ program : InstrStore, program ≠ [] ∧ ∀ a : Word, opcodeOf (imemRead Config.standard program a) ≠ opLw :=
  ⟨[(0, 0x00221820#32)], by decide, test_no_load_in_program⟩

/-- With one ADD in the instruction store and a store of zero to address 2044 in EX/MEM. -/
theorem test_witness_EveryStepKeepsZeroWithoutLoads :
    ∃ s t : State, s.ZeroWithoutLoads ∧ s.exmem.output.memWrite = true ∧ s.imem ≠ [] ∧ step s = .next t :=
  ⟨{ State.reset with
      imem := [(0, 0x00221820#32)]
      exmem := latched { ExMem.zero with memWrite := true, aluResult := 2044#32 } }, _,
    { noLoadFetched := test_no_load_in_program
      noLoadInDecode := by decide
      noLoadInExecute := by decide
      operandsZero := by decide
      resultZero := by decide
      storeDataZero := by decide
      writeBackZero := by decide
      registersZero := by decide
      bytesZero := fun _ => rfl }, by decide, by decide, rfl⟩

/-- The counterexample's program (log 7): the load of `$1` from 100, then the addition that takes its address. -/
theorem test_witness_ZeroStaysZeroForEveryProgram :
    ∃ t, Host.Core.run Sys2Proof.core 1
      { State.construct Config.standard with imem := [(0, 0x8C010064#32), (1, 0x00211020#32)] } = .next t := ⟨_, rfl⟩

end Sys2Proof.Tests
end

section
/-! The data store's ports (R76, R77) and the instruction store along a run (R87). -/

namespace Sys2Proof.Machine

/-! ## The range of a word access, as the spec words it -/

/-- `addr <= DMEM_BYTES - 4` says the same as `addr + 4 <= DMEM_BYTES` because the store holds at least one word. -/
theorem wordFits_iff {c : Config} (hc : 4 ≤ c.dmemBytes) (addr : Word) :
    addr.toNat ≤ c.dmemBytes - 4 ↔ addr.toNat + 4 ≤ c.dmemBytes := by
  omega

theorem memRead_of_fits {c : Config} {addr : Word} (m : Memory) (h : addr.toNat + 4 ≤ c.dmemBytes) :
    memRead c m addr true = wordAt m addr.toNat := by
  obtain ⟨_, _, hread⟩ | ⟨hout, _⟩ := memRead_cases c m addr true
  · exact hread
  · exact absurd ⟨rfl, h⟩ hout

theorem memRead_of_not_fits {c : Config} {addr : Word} (m : Memory) (en : Bool) (h : ¬ addr.toNat + 4 ≤ c.dmemBytes) :
    memRead c m addr en = 0#32 := by
  obtain ⟨_, hin, _⟩ | ⟨_, hread⟩ := memRead_cases c m addr en
  · exact absurd hin h
  · exact hread

/-- Settles O25: each clause is one case of the read port, at the boundary the spec names. -/
theorem dataReadIsLittleEndian : Obligations.DataReadIsLittleEndian := by
  intro c m addr k hc
  refine ⟨memRead_disabled c m addr, fun habove => ?_, fun hfits hk => ?_⟩
  · exact memRead_of_not_fits m true (mt (wordFits_iff hc addr).2 (Nat.not_le.2 habove))
  · rw [memRead_of_fits m ((wordFits_iff hc addr).1 hfits), byteOf_wordAt m addr.toNat k hk]

/-- Settles O26: the write port's effect on one byte, its range worded as in R77. -/
theorem dataWriteTouchesFourBytes : Obligations.DataWriteTouchesFourBytes := by
  intro c m addr value en a hc
  simp only [byteAt_memWrite, wordFits_iff hc, and_assoc]

/-! ## Invariants along a run -/

/-- No step faults or is refused (R320). -/
theorem exists_step (s : State) : ∃ t, step s = .next t := by
  cases hr : s.rst with
  | true => exact ⟨_, step_of_reset hr⟩
  | false => exact ⟨_, step_of_released hr⟩

/-- A run of `n + 1` edges is one edge and a run of `n` from where it lands. -/
theorem run_succ_cases {n : Nat} {s t : State} (h : Host.Core.run Sys2Proof.core (n + 1) s = .next t) :
    ∃ u, step s = .next u ∧ Host.Core.run Sys2Proof.core n u = .next t := by
  obtain ⟨u, hu⟩ := exists_step s
  exact ⟨u, hu, (run_succ_of_step n hu).symm.trans h⟩

/-- What every step keeps, every run keeps. -/
theorem run_keeps {P : State → Prop} (hstep : ∀ {s t : State}, P s → step s = .next t → P t) {n : Nat} {s t : State}
    (hs : P s) (h : Host.Core.run Sys2Proof.core n s = .next t) : P t := by
  induction n generalizing s with
  | zero => exact Host.Outcome.next.inj ((run_zero s).symm.trans h) ▸ hs
  | succ n ih =>
    obtain ⟨u, hu, hrun⟩ := run_succ_cases h
    exact ih (hstep hs hu) hrun

/-- Neither the reset edge nor a cycle writes the instruction store. -/
theorem step_imem {s t : State} (h : step s = .next t) : t.imem = s.imem := by
  obtain ⟨_, rfl⟩ | ⟨_, rfl⟩ := step_cases h
  · exact resetEdge_imem s
  · exact cycle_imem s _

/-- Settles O45: the instruction store's contents are an invariant of every step. -/
theorem noRunWritesTheInstructionStore : Obligations.NoRunWritesTheInstructionStore := by
  intro n s t h
  exact run_keeps (P := fun u => u.imem = s.imem) (fun hu hstep => (step_imem hstep).trans hu) rfl h

end Sys2Proof.Machine
end

section
/-! Every word decodes to a well-formed instruction whose word it is (R110, R112). -/

namespace Sys2Proof

/-- The fields of the R-type format, in order, make up the word. -/
theorem rtype_fields_append (w : Word) :
    opcodeOf w ++ rsOf w ++ rtOf w ++ rdOf w ++ shamtOf w ++ functOf w = w := by
  simp only [opcodeOf, rsOf, rtOf, rdOf, shamtOf, functOf]
  ext i hi; simp only [BitVec.getElem_append, BitVec.getElem_extractLsb']; grind

/-- The fields of the I-type format, in order, make up the word. -/
theorem itype_fields_append (w : Word) : opcodeOf w ++ rsOf w ++ rtOf w ++ immOf w = w := by
  simp only [opcodeOf, rsOf, rtOf, immOf]
  ext i hi; simp only [BitVec.getElem_append, BitVec.getElem_extractLsb']; grind

/-- The fields of the J-type format, in order, make up the word. -/
theorem jtype_fields_append (w : Word) : opcodeOf w ++ targetOf w = w := by
  simp only [opcodeOf, targetOf]
  ext i hi; simp only [BitVec.getElem_append, BitVec.getElem_extractLsb']; grind

theorem encode_decodeRtype {w : Word} (hop : opcodeOf w = opRtype) : encode (decodeRtype w) = w := by
  have hw : ∀ funct, functOf w = funct → rtypeWord (rsOf w) (rtOf w) (rdOf w) (shamtOf w) funct = w := by
    rintro _ rfl
    rw [rtypeWord, ← hop, rtype_fields_append]
  unfold decodeRtype
  split_ifs with hadd hsub hand hor hslt
  · exact hw _ hadd
  · exact hw _ hsub
  · exact hw _ hand
  · exact hw _ hor
  · exact hw _ hslt
  · exact hw _ rfl

/-- Decoding loses no bit of the word. -/
theorem encode_decode (w : Word) : encode (decode w) = w := by
  have hi : ∀ opcode, opcodeOf w = opcode → itypeWord opcode (rsOf w) (rtOf w) (immOf w) = w := by
    rintro _ rfl
    exact itype_fields_append w
  have hj : ∀ opcode, opcodeOf w = opcode → jtypeWord opcode (targetOf w) = w := by
    rintro _ rfl
    exact jtype_fields_append w
  unfold decode
  split_ifs with hrtype hjump hbeq hlw hsw
  · exact encode_decodeRtype hrtype
  · exact hj _ hjump
  · exact hi _ hbeq
  · exact hi _ hlw
  · exact hi _ hsw
  · exact hj _ rfl

theorem mem_mappedFuncts (funct : Field6) :
    funct ∈ mappedFuncts ↔
      funct = functAdd ∨ funct = functSub ∨ funct = functAnd ∨ funct = functOr ∨ funct = functSlt := by
  simp [mappedFuncts, functAdd, functSub, functAnd, functOr, functSlt]

theorem mem_mappedOpcodes (opcode : Field6) :
    opcode ∈ mappedOpcodes ↔ opcode = opRtype ∨ opcode = opJ ∨ opcode = opBeq ∨ opcode = opLw ∨ opcode = opSw := by
  simp [mappedOpcodes, opRtype, opJ, opBeq, opLw, opSw]

theorem decodeRtype_wellFormed (w : Word) : (decodeRtype w).wellFormed = true := by
  unfold decodeRtype
  split_ifs with hadd hsub hand hor hslt
  · rfl
  · rfl
  · rfl
  · rfl
  · rfl
  · simp [Instr.wellFormed, mem_mappedFuncts, hadd, hsub, hand, hor, hslt]

/-- The decoder answers a catch-all row only where no row above it matches. -/
theorem decode_wellFormed (w : Word) : (decode w).wellFormed = true := by
  unfold decode
  split_ifs with hrtype hjump hbeq hlw hsw
  · exact decodeRtype_wellFormed w
  · rfl
  · rfl
  · rfl
  · rfl
  · simp [Instr.wellFormed, mem_mappedOpcodes, hrtype, hjump, hbeq, hlw, hsw]

end Sys2Proof
end

section
/-! What decode issues into the pipeline, read off the tables of R107 to R109, and what one edge does with it in each stage
(R150 to R201). -/

namespace Sys2Proof.Machine

/-! ## What the decode stage is given is what the tables say (R107 to R109) -/

@[simp] theorem decodeByTables_instr (w : Word) : (decodeByTables w).instr = w := rfl
@[simp] theorem decodeByTables_ctl (w : Word) : (decodeByTables w).ctl = controlOf (opcodeOf w) := rfl

/-- The tables' answer for a word with the opcode of the register-type row. -/
theorem decodeByTables_of_rtype {w : Word} {funct : Field6} (h : opcodeOf w = opRtype ∧ functOf w = funct) :
    decodeByTables w = { instr := w, aluCtl := rtypeAluControl funct, ctl := Control.rtype } := by
  obtain ⟨hop, rfl⟩ := h
  rw [decodeByTables, hop]
  rfl

/-- The tables' answer for any other word: its opcode alone decides. -/
theorem decodeByTables_of_opcode {w : Word} {opcode : Field6} (h : opcodeOf w = opcode) :
    decodeByTables w =
      { instr := w, aluCtl := aluControlOf (aluClassOf opcode) (functOf w), ctl := controlOf opcode } := by
  rw [decodeByTables, h]

theorem rtypeAluControl_of_unmapped {funct : Field6} (h : funct ∉ mappedFuncts) :
    rtypeAluControl funct = aluInvalid := by
  simp only [mem_mappedFuncts, not_or] at h
  simp [rtypeAluControl, h]

theorem aluClassOf_of_unmapped {opcode : Field6} (h : opcode ∉ mappedOpcodes) : aluClassOf opcode = .invalid := by
  simp only [mem_mappedOpcodes, not_or] at h
  simp [aluClassOf, h]

theorem controlOf_of_unmapped {opcode : Field6} (h : opcode ∉ mappedOpcodes) : controlOf opcode = Control.none := by
  simp only [mem_mappedOpcodes, not_or] at h
  simp [controlOf, h]

/-- What each meaning issues is what the tables give for its word. -/
theorem issued_eq_decodeByTables {i : Instr} (h : i.wellFormed = true) : issued i = decodeByTables (encode i) := by
  cases i with
  | add rs rt rd shamt => exact (decodeByTables_of_rtype (Laws.OpcodeRow.add rs rt rd shamt h)).symm
  | sub rs rt rd shamt => exact (decodeByTables_of_rtype (Laws.OpcodeRow.sub rs rt rd shamt h)).symm
  | and rs rt rd shamt => exact (decodeByTables_of_rtype (Laws.OpcodeRow.and rs rt rd shamt h)).symm
  | or rs rt rd shamt => exact (decodeByTables_of_rtype (Laws.OpcodeRow.or rs rt rd shamt h)).symm
  | slt rs rt rd shamt => exact (decodeByTables_of_rtype (Laws.OpcodeRow.slt rs rt rd shamt h)).symm
  | lw rs rt imm => exact (decodeByTables_of_opcode (Laws.OpcodeRow.lw rs rt imm h)).symm
  | sw rs rt imm => exact (decodeByTables_of_opcode (Laws.OpcodeRow.sw rs rt imm h)).symm
  | beq rs rt imm => exact (decodeByTables_of_opcode (Laws.OpcodeRow.beq rs rt imm h)).symm
  | j target => exact (decodeByTables_of_opcode (Laws.OpcodeRow.j target h)).symm
  | rtypeUnmappedFunct rs rt rd shamt funct =>
    obtain ⟨hop, hfunct⟩ := Laws.OpcodeRow.rtypeUnmappedFunct rs rt rd shamt funct h
    rw [decodeByTables_of_rtype ⟨hop, rfl⟩, rtypeAluControl_of_unmapped hfunct]
    rfl
  | unmappedOpcode opcode rest =>
    have hop := Laws.OpcodeRow.unmappedOpcode opcode rest h
    rw [decodeByTables_of_opcode rfl, aluClassOf_of_unmapped hop, controlOf_of_unmapped hop]
    rfl

/-- The step with the reset pin released, with the tables in place of the eleven meanings. -/
theorem step_of_released_byTables {s : State} (h : s.rst = false) :
    step s = .next (s.cycle (decodeByTables s.ifid.output.instr)) := by
  rw [step_of_released h, issued_eq_decodeByTables (decode_wellFormed _), encode_decode]

/-! ## What decode reads (R164, R165, R190, R196) -/

/-- Every register after the write of this cycle: the one the MEM/WB tap matches is written, no other. -/
theorem bankRead_bankAfterWriteBack (s : State) (k : RegIdx) :
    bankRead s.bankAfterWriteBack k = if s.memwbTap k = true then s.memwb.output.regWrData else bankRead s.bank k := by
  have htap : s.memwbTap k = true ↔
      (s.memwb.output.regWrite = true ∧ s.memwb.output.registerNum ≠ 0#5) ∧ k = s.memwb.output.registerNum := by
    rw [memwbTap_iff]
    constructor
    · rintro ⟨hen, rfl, hne⟩
      exact ⟨⟨hen, hne⟩, rfl⟩
    · rintro ⟨⟨hen, hne⟩, rfl⟩
      exact ⟨hen, rfl, hne⟩
  rw [State.bankAfterWriteBack, bankRead_bankWrite]
  simp only [htap]

/-- The bypassed read port and the read after the write give the same value. -/
theorem readPort_eq_decodeRead (s : State) (i : RegIdx) : s.readPort i = s.decodeRead i := by
  rw [State.decodeRead, bankRead_bankAfterWriteBack]
  by_cases hi : i = 0#5
  · subst hi
    simp [State.readPort, State.memwbTap]
  · simp [State.readPort, memwbTap_iff, bankRead, hi]

/-- The register read of the statements is the read port of the bank. -/
theorem reg_eq_bankRead (b : Bank) (i : RegIdx) : Claims.reg b i = bankRead b i := rfl

/-- One input of the equality unit, its tap written out. -/
theorem eqInput_eq (s : State) (i : RegIdx) :
    s.eqInput i =
      if s.exmem.output.regWrite = true ∧ s.exmem.output.registerNum = i ∧ i ≠ 0#5 then s.exmem.output.aluResult
      else Claims.reg s.bankAfterWriteBack i := by
  simp only [State.eqInput, exmemTap_iff, State.decodeRead, reg_eq_bankRead]

/-- The program-counter mux on the equality unit's result: the jump, else the taken branch, else `pc + 4` (R166). -/
theorem selectedPc_eq (s : State) (d : Decoded) :
    s.selectedPc d =
      if d.ctl.isJump = true then jumpAddr s.idex.output.nextPc (targetOf d.instr)
      else if d.ctl.isBranch = true ∧ s.eqInput (rsOf d.instr) = s.eqInput (rtOf d.instr) then
        branchAddr s.idex.output.nextPc (sextImm (immOf d.instr))
      else s.idex.output.nextPc + 4#32 := by
  simp only [State.selectedPc, nextPcMux, State.equal, decide_eq_true_eq]

/-- The forwarding unit with both taps written out: EX/MEM before MEM/WB, index 0 excluded (R170, R171). -/
theorem forward_eq (s : State) (i : RegIdx) (v : Word) :
    s.forward i v =
      if s.exmem.output.regWrite = true ∧ s.exmem.output.registerNum = i ∧ i ≠ 0#5 then s.exmem.output.aluResult
      else if s.memwb.output.regWrite = true ∧ s.memwb.output.registerNum = i ∧ i ≠ 0#5 then s.memwb.output.regWrData
      else v := by
  simp only [State.forward, exmemTap_iff, memwbTap_iff]

/-! ## The statements -/

/-- Settles O11: the bank after the edge is the bank decode reads, and the bypass formula gives the same reads. -/
theorem writeBackLandsBeforeDecodeReads : Obligations.WriteBackLandsBeforeDecodeReads := by
  intro s hrst
  refine ⟨_, step_of_released_byTables hrst, fun k => ?_, fun k => ?_, ?_, ?_⟩
  · simp only [cycle_bank, reg_eq_bankRead, bankRead_bankAfterWriteBack, memwbTap_iff]
  · exact readPort_eq_decodeRead s k
  · exact (readPort_eq_decodeRead s _).symm
  · exact (readPort_eq_decodeRead s _).symm

/-- Settles O9: every pipeline register and `PC` are loaded with what the cycle put on the input sides. -/
theorem edgeLoadsLatchesAndPc : Obligations.EdgeLoadsLatchesAndPc := by
  intro s hrst
  refine ⟨_, step_of_released hrst, ?_⟩
  simp only [cycle_ifid, cycle_idex, cycle_exmem, cycle_memwb, cycle_pc, latched_input, latched_output,
    decodeStage_nextPc, and_self]

/-- Settles O10: the fetch stage is one read of the instruction store. -/
theorem fetchStageReadsInstructionStore : Obligations.FetchStageReadsInstructionStore := by
  intro s hrst
  exact ⟨_, step_of_released hrst, fetchStage_instr s⟩

/-- Settles O12: the mux of `selectedPc_eq` on the control row of the word's opcode, with both inputs of `eqInput_eq`. -/
theorem equalityUnitAndPcMux : Obligations.EqualityUnitAndPcMux := by
  intro s hrst
  refine ⟨_, step_of_released_byTables hrst, ?_⟩
  rw [cycle_idex, latched_input, decodeStage_nextPc, selectedPc_eq, decodeByTables_ctl, decodeByTables_instr,
    eqInput_eq, eqInput_eq]
  rfl

/-- Settles O13: the execute stage, both operands through the forwarding unit of `forward_eq`. -/
theorem executeStageForwardsAndComputes : Obligations.ExecuteStageForwardsAndComputes := by
  intro s hrst
  refine ⟨_, step_of_released hrst, ?_⟩
  simp only [cycle_exmem, latched_input, State.executeStage, State.aluResult, State.opB, State.opA, State.fwdB,
    State.dest, forward_eq]

/-- Settles O14: the value read is that of the data store before this cycle's write. -/
theorem memoryStageReadsWritesAndPasses : Obligations.MemoryStageReadsWritesAndPasses := by
  intro s hrst
  refine ⟨_, step_of_released hrst, ?_, ?_⟩
  · simp only [cycle_memwb, latched_input, State.memoryStage, State.wbValue]
  · simp only [cycle_dmem, State.dmemAfterMemory]

/-- Settles O16: construction field by field, and the reset edge, which writes the core's own fields only. -/
theorem resetZeroesTheCore : Obligations.ResetZeroesTheCore := by
  refine ⟨fun cfg => ⟨rfl, rfl, rfl, rfl, rfl⟩, fun s hrst => ⟨_, step_of_reset hrst, ?_⟩⟩
  exact ⟨resetEdge_pc s, resetEdge_ifid s, resetEdge_idex s, resetEdge_exmem s, resetEdge_memwb s, resetEdge_bank s,
    resetEdge_dmem s, resetEdge_imem s, resetEdge_cfg s⟩

end Sys2Proof.Machine
end

section
/-! The ALU's table (R220), and the path of a register-type instruction from its encoding to the register it writes (R222,
R225 to R229). -/

namespace Sys2Proof

/-! ## From the opcode table's mask to the decoder's fields (R105, R106, R112) -/

/-- The mask of a register-type row keeps the whole opcode. -/
theorem opcodeOf_and_rtypeMask (w : Word) : opcodeOf (w &&& 0xFC00003F#32) = opcodeOf w := by
  have hmask : (0xFC00003F#32).extractLsb' 26 6 = BitVec.allOnes 6 := by decide
  rw [opcodeOf, BitVec.extractLsb'_and, hmask, BitVec.and_allOnes, opcodeOf]

/-- The mask of a register-type row keeps the whole funct. -/
theorem functOf_and_rtypeMask (w : Word) : functOf (w &&& 0xFC00003F#32) = functOf w := by
  have hmask : (0xFC00003F#32).extractLsb' 0 6 = BitVec.allOnes 6 := by decide
  rw [functOf, BitVec.extractLsb'_and, hmask, BitVec.and_allOnes, functOf]

/-- A word that matches a row with the register-type opcode decodes to what the funct map gives for that row's funct. -/
theorem decode_of_rtypeMask {w row : Word} {i : Instr} (h : w &&& 0xFC00003F#32 = row) (hrow : opcodeOf row = opRtype)
    (hi : functOf w = functOf row → decodeRtype w = i) : decode w = i := by
  subst h
  rw [opcodeOf_and_rtypeMask] at hrow
  exact (if_pos hrow).trans (hi (functOf_and_rtypeMask w).symm)

/-! ## The funct map, one equation per funct (R106) -/

theorem decodeRtype_of_functAdd {w : Word} (h : functOf w = functAdd) :
    decodeRtype w = .add (rsOf w) (rtOf w) (rdOf w) (shamtOf w) := by rw [decodeRtype, h]; rfl

theorem decodeRtype_of_functSub {w : Word} (h : functOf w = functSub) :
    decodeRtype w = .sub (rsOf w) (rtOf w) (rdOf w) (shamtOf w) := by rw [decodeRtype, h]; rfl

theorem decodeRtype_of_functAnd {w : Word} (h : functOf w = functAnd) :
    decodeRtype w = .and (rsOf w) (rtOf w) (rdOf w) (shamtOf w) := by rw [decodeRtype, h]; rfl

theorem decodeRtype_of_functOr {w : Word} (h : functOf w = functOr) :
    decodeRtype w = .or (rsOf w) (rtOf w) (rdOf w) (shamtOf w) := by rw [decodeRtype, h]; rfl

theorem decodeRtype_of_functSlt {w : Word} (h : functOf w = functSlt) :
    decodeRtype w = .slt (rsOf w) (rtOf w) (rdOf w) (shamtOf w) := by rw [decodeRtype, h]; rfl

end Sys2Proof

namespace Sys2Proof.Machine

/-! ## The ALU, one equation per code (R220) -/

@[simp] theorem alu_aluAnd (a b : Word) : alu aluAnd a b = a &&& b := rfl
@[simp] theorem alu_aluOr (a b : Word) : alu aluOr a b = a ||| b := rfl
@[simp] theorem alu_aluAdd (a b : Word) : alu aluAdd a b = a + b := rfl
@[simp] theorem alu_aluSub (a b : Word) : alu aluSub a b = a - b := rfl
@[simp] theorem alu_aluSlt (a b : Word) : alu aluSlt a b = setLessThan a b := rfl
@[simp] theorem alu_aluNor (a b : Word) : alu aluNor a b = ~~~(a ||| b) := rfl
@[simp] theorem alu_aluInvalid (a b : Word) : alu aluInvalid a b = 0#32 := rfl

/-- A code that names no operation gives 0. -/
theorem alu_of_unnamed {c : AluCode} (h : c ∉ [aluAnd, aluOr, aluAdd, aluSub, aluSlt, aluNor]) (a b : Word) :
    alu c a b = 0#32 := by
  simp only [List.mem_cons, List.not_mem_nil, or_false, not_or] at h
  simp [alu, h]

/-- Addition is that of the operands' unsigned values, modulo 2^32. -/
theorem alu_aluAdd_eq_ofNat (a b : Word) : alu aluAdd a b = BitVec.ofNat 32 (a.toNat + b.toNat) := by
  simp [BitVec.ofNat_add]

/-- Subtraction is that of the operands' unsigned values as integers, modulo 2^32. -/
theorem alu_aluSub_eq_ofInt (a b : Word) : alu aluSub a b = BitVec.ofInt 32 (a.toNat - b.toNat) := by
  simp [Int.sub_eq_add_neg, BitVec.ofInt_add, BitVec.ofInt_neg, BitVec.sub_eq_add_neg]

/-- Settles O15: one equation per code, the two arithmetic ones on unsigned values. -/
theorem aluFollowsItsTable : Obligations.AluFollowsItsTable := by
  intro c a b
  exact ⟨alu_aluAnd a b, alu_aluOr a b, BitVec.toNat_add a b, BitVec.toNat_sub' a b, alu_aluSlt a b, alu_aluNor a b,
    fun hc => alu_of_unnamed hc a b⟩

/-! ## What the control signals switch off in each stage -/

/-- With no transfer in decode the next address is `pc + 4` (R166). -/
theorem selectedPc_of_no_transfer {s : State} {d : Decoded} (hjump : d.ctl.isJump = false)
    (hbranch : d.ctl.isBranch = false) : s.selectedPc d = s.idex.output.nextPc + 4#32 := by
  simp [selectedPc_eq, hjump, hbranch]

/-- Without `aluSrc` the ALU works on the two forwarded registers (R172, R173). -/
theorem aluResult_of_registers {s : State} (h : s.idex.output.aluSrc = false) :
    s.aluResult = alu s.idex.output.aluCtl s.opA s.fwdB := by
  simp [State.aluResult, State.opB, h]

/-- With `regDest` the destination is `rd` (R174). -/
theorem dest_of_regDest {s : State} (h : s.idex.output.regDest = true) : s.dest = s.idex.output.rdIdx :=
  if_pos h

/-- Without `memToReg` the ALU result is what write-back gets (R182). -/
theorem wbValue_of_aluResult {s : State} (h : s.exmem.output.memToReg = false) :
    s.wbValue = s.exmem.output.aluResult := by
  simp [State.wbValue, h]

/-- Without `memWrite` the data store stays as it is (R181). -/
theorem dmemAfterMemory_of_no_store {s : State} (h : s.exmem.output.memWrite = false) :
    s.dmemAfterMemory = s.dmem := by
  rw [State.dmemAfterMemory, h, memWrite_disabled]

/-- With `regWrite` set, write-back changes the destination, unless it is 0, and no other register (R190). -/
theorem reg_bankAfterWriteBack {s : State} (h : s.memwb.output.regWrite = true) (k : RegIdx) :
    Claims.reg s.bankAfterWriteBack k =
      if k = s.memwb.output.registerNum ∧ s.memwb.output.registerNum ≠ 0#5 then s.memwb.output.regWrData
      else Claims.reg s.bank k := by
  simp only [reg_eq_bankRead, State.bankAfterWriteBack, bankRead_bankWrite, h, true_and, and_comm]

/-! ## Following one instruction through the pipeline -/

/-- With the pin released, an instruction and the three edges behind it are four cycles, whatever is decoded behind it. -/
theorem exec_then_three_steps (i : Instr) {s : State} (hrst : s.rst = false) :
    ∃ s1 s2 s3 s4 d1 d2 d3, exec i s = .next s1 ∧ step s1 = .next s2 ∧ step s2 = .next s3 ∧ step s3 = .next s4 ∧
      s1 = s.cycle (issued i) ∧ s2 = s1.cycle d1 ∧ s3 = s2.cycle d2 ∧ s4 = s3.cycle d3 := by
  refine ⟨_, _, _, _, _, _, _, exec_eq_cycle i s, step_of_released ?_, step_of_released ?_, step_of_released ?_,
    rfl, rfl, rfl, rfl⟩
  all_goals simp only [cycle_rst, hrst]

/-- Four cycles behind the control row of `OP_RTYPE`, stage by stage. -/
theorem rtypePath_of_cycles {s s1 s2 s3 s4 : State} {d d1 d2 d3 : Decoded} (hctl : d.ctl = Control.rtype)
    (h1 : s1 = s.cycle d) (h2 : s2 = s1.cycle d1) (h3 : s3 = s2.cycle d2) (h4 : s4 = s3.cycle d3) :
    Claims.RtypePath (rsOf d.instr) (rtOf d.instr) (rdOf d.instr) (alu d.aluCtl s1.opA s1.fwdB) s s1 s2 s3 s4 := by
  -- what each edge puts into the pipeline register behind it
  have hidex : s1.idex.output = s.decodeStage d := by rw [h1]; rfl
  have hexmem : s2.exmem.output = s1.executeStage := by rw [h2]; rfl
  have hmemwb : s3.memwb.output = s2.memoryStage := by rw [h3]; rfl
  -- decode
  have hpc : s1.pc = s.idex.output.nextPc + 4#32 := by
    rw [h1]
    exact selectedPc_of_no_transfer (congrArg Control.isJump hctl) (congrArg Control.isBranch hctl)
  have hcontrol : s1.idex.output.control = Control.rtype := by rw [hidex]; exact hctl
  have hread : ∀ k, s.decodeRead k = Claims.reg s1.bank k := by intro k; rw [h1]; rfl
  -- execute
  have hresult : s2.exmem.output.aluResult = alu d.aluCtl s1.opA s1.fwdB := by
    rw [hexmem, executeStage_aluResult, aluResult_of_registers (congrArg Control.aluSrc hcontrol), hidex,
      decodeStage_aluCtl]
  have hdest : s2.exmem.output.registerNum = rdOf d.instr := by
    rw [hexmem, executeStage_registerNum, dest_of_regDest (congrArg Control.regDest hcontrol), hidex, decodeStage_rdIdx]
  have hwrite : s2.exmem.output.regWrite = true := by rw [hexmem]; exact congrArg Control.regWrite hcontrol
  have hload : s2.exmem.output.memToReg = false := by rw [hexmem]; exact congrArg Control.memToReg hcontrol
  have hstore : s2.exmem.output.memWrite = false := by rw [hexmem]; exact congrArg Control.memWrite hcontrol
  -- memory
  have hvalue : s3.memwb.output.regWrData = alu d.aluCtl s1.opA s1.fwdB := by
    rw [hmemwb, memoryStage_regWrData, wbValue_of_aluResult hload, hresult]
  have hnum : s3.memwb.output.registerNum = rdOf d.instr := by rw [hmemwb, memoryStage_registerNum, hdest]
  have hwrite' : s3.memwb.output.regWrite = true := by rw [hmemwb, memoryStage_regWrite, hwrite]
  have hdmem : s3.dmem = s2.dmem := by rw [h3, cycle_dmem, dmemAfterMemory_of_no_store hstore]
  -- write-back
  have hbank : ∀ k, Claims.reg s4.bank k =
      if k = rdOf d.instr ∧ rdOf d.instr ≠ 0#5 then alu d.aluCtl s1.opA s1.fwdB else Claims.reg s3.bank k := by
    intro k
    rw [h4, cycle_bank, reg_bankAfterWriteBack hwrite', hnum, hvalue]
  refine ⟨hpc, hcontrol, ?_, ?_, ?_, ?_, hresult, hdest, hwrite, hvalue, hnum, hwrite', hdmem, hbank⟩
  · rw [hidex, decodeStage_rsIdx]
  · rw [hidex, decodeStage_rtIdx]
  · rw [hidex, decodeStage_rsVal, hread]
  · rw [hidex, decodeStage_rtVal, hread]

/-- The whole path of a register-type instruction whose ALU code computes `f`. -/
theorem rtypePath_of_exec {i : Instr} {s : State} {rs rt rd shamt : RegIdx} {funct : Field6} (f : Word → Word → Word)
    (hrst : s.rst = false) (hword : encode i = rtypeWord rs rt rd shamt funct) (hctl : (issued i).ctl = Control.rtype)
    (halu : ∀ a b, alu (issued i).aluCtl a b = f a b) :
    ∃ s1 s2 s3 s4, exec i s = .next s1 ∧ step s1 = .next s2 ∧ step s2 = .next s3 ∧ step s3 = .next s4 ∧
      s1.idex.output.aluCtl = (issued i).aluCtl ∧
      Claims.RtypePath rs rt rd (f s1.opA s1.fwdB) s s1 s2 s3 s4 := by
  obtain ⟨s1, s2, s3, s4, _, _, _, hexec, hstep1, hstep2, hstep3, h1, h2, h3, h4⟩ := exec_then_three_steps i hrst
  refine ⟨s1, s2, s3, s4, hexec, hstep1, hstep2, hstep3, ?_, ?_⟩
  · rw [h1, cycle_idex, latched_output, decodeStage_aluCtl]
  · have hpath := rtypePath_of_cycles hctl h1 h2 h3 h4
    rwa [issued_instr, hword, rsOf_rtypeWord, rtOf_rtypeWord, rdOf_rtypeWord, halu] at hpath

/-! ## The five instructions -/

/-- Settles O19: the path with `ALU_ADD` and with `ALU_SUB`, the results on exact integers. -/
theorem addAndSubWriteTheirResults : Obligations.AddAndSubWriteTheirResults := by
  refine ⟨fun _ h => decode_of_rtypeMask h rfl decodeRtype_of_functAdd,
    fun _ h => decode_of_rtypeMask h rfl decodeRtype_of_functSub, fun s rs rt rd shamt hrst => ⟨?_, ?_⟩⟩
  · exact rtypePath_of_exec (fun a b => BitVec.ofNat 32 (a.toNat + b.toNat)) hrst rfl rfl alu_aluAdd_eq_ofNat
  · exact rtypePath_of_exec (fun a b => BitVec.ofInt 32 (a.toNat - b.toNat)) hrst rfl rfl alu_aluSub_eq_ofInt

/-- Settles O20: the path with `ALU_AND` and with `ALU_OR`. -/
theorem andAndOrWriteTheirResults : Obligations.AndAndOrWriteTheirResults := by
  refine ⟨fun _ h => decode_of_rtypeMask h rfl decodeRtype_of_functAnd,
    fun _ h => decode_of_rtypeMask h rfl decodeRtype_of_functOr, fun s rs rt rd shamt hrst => ⟨?_, ?_⟩⟩
  · exact rtypePath_of_exec (· &&& ·) hrst rfl rfl alu_aluAnd
  · exact rtypePath_of_exec (· ||| ·) hrst rfl rfl alu_aluOr

/-- Settles O21: the path with `ALU_SLT`, whose comparison is of unsigned values. -/
theorem sltWritesTheUnsignedComparison : Obligations.SltWritesTheUnsignedComparison := by
  refine ⟨fun _ h => decode_of_rtypeMask h rfl decodeRtype_of_functSlt, fun s rs rt rd shamt hrst => ?_⟩
  exact rtypePath_of_exec setLessThan hrst rfl rfl alu_aluSlt

end Sys2Proof.Machine
end

section
/-! LW and SW from their encodings to the memory and write-back cycles (R260 to R263). -/

namespace Sys2Proof

/-! ## From the opcode table's mask to the decoder's opcode (R105, R112) -/

/-- The mask of an opcode row keeps the whole opcode. -/
theorem opcodeOf_and_opcodeMask (w : Word) : opcodeOf (w &&& 0xFC000000#32) = opcodeOf w := by
  have hmask : (0xFC000000#32).extractLsb' 26 6 = BitVec.allOnes 6 := by decide
  rw [opcodeOf, BitVec.extractLsb'_and, hmask, BitVec.and_allOnes, opcodeOf]

/-- A word that matches a row under the opcode mask has that row's opcode. -/
theorem opcodeOf_of_opcodeMask {w row : Word} (h : w &&& 0xFC000000#32 = row) : opcodeOf w = opcodeOf row := by
  rw [← h, opcodeOf_and_opcodeMask]

theorem decode_of_opLw {w : Word} (h : opcodeOf w = opLw) : decode w = .lw (rsOf w) (rtOf w) (immOf w) := by
  rw [decode, h]; rfl

theorem decode_of_opSw {w : Word} (h : opcodeOf w = opSw) : decode w = .sw (rsOf w) (rtOf w) (immOf w) := by
  rw [decode, h]; rfl

end Sys2Proof

namespace Sys2Proof.Machine

/-! ## What the control signals of a load or store select in each stage -/

/-- With `aluSrc` the second ALU operand is the latched immediate (R172, R173). -/
theorem aluResult_of_immediate {s : State} (h : s.idex.output.aluSrc = true) :
    s.aluResult = alu s.idex.output.aluCtl s.opA s.idex.output.imm := by
  rw [State.aluResult, State.opB, if_pos h]

/-- Without `regDest` the destination is `rt` (R174). -/
theorem dest_of_not_regDest {s : State} (h : s.idex.output.regDest = false) : s.dest = s.idex.output.rtIdx := by
  simp [State.dest, h]

/-- With `memToReg` the word read is what write-back gets (R182). -/
theorem wbValue_of_load {s : State} (h : s.exmem.output.memToReg = true) :
    s.wbValue = memRead s.cfg s.dmem s.exmem.output.aluResult s.exmem.output.memRead :=
  if_pos h

/-- With `memWrite` the memory stage changes the four bytes at the ALU result, in range, and no other byte (R181). -/
theorem byteAt_dmemAfterMemory_of_store {s : State} (h : s.exmem.output.memWrite = true) (a : Nat) :
    byteAt s.dmemAfterMemory a =
      if s.exmem.output.aluResult.toNat + 4 ≤ s.cfg.dmemBytes ∧ s.exmem.output.aluResult.toNat ≤ a ∧
        a < s.exmem.output.aluResult.toNat + 4
      then byteOf s.exmem.output.writeData (a - s.exmem.output.aluResult.toNat) else byteAt s.dmem a := by
  simp only [State.dmemAfterMemory, byteAt_memWrite, h, true_and]

/-- Without `regWrite` write-back leaves the bank as it is (R190). -/
theorem bankAfterWriteBack_of_no_write {s : State} (h : s.memwb.output.regWrite = false) :
    s.bankAfterWriteBack = s.bank := by
  rw [State.bankAfterWriteBack, h, bankWrite_disabled]

/-- Where the EX/MEM tap matches, the forwarding unit passes the ALU result on, whatever was latched (R170). -/
theorem forward_of_exmemTap {s : State} {i : RegIdx} (h : s.exmemTap i = true) (v : Word) :
    s.forward i v = s.exmem.output.aluResult :=
  if_pos h

/-- Where the EX/MEM tap matches, the equality unit takes the ALU result (R165). -/
theorem eqInput_of_exmemTap {s : State} {i : RegIdx} (h : s.exmemTap i = true) :
    s.eqInput i = s.exmem.output.aluResult :=
  if_pos h

/-! ## The decode and execute cycles that LW and SW share (R260, R263) -/

/-- The path of an access with control row `c`, from decode (`s` to `s1`) through execute (`s1` to `s2`): base, data
register and immediate are latched, and the address `opA + sext imm` and the forwarded data reach EX/MEM with the
signals of `c`. -/
structure AccessPath (c : Control) (rs rt : RegIdx) (imm : Imm16) (s s1 s2 : State) : Prop where
  pc : s1.pc = s.idex.output.nextPc + 4#32
  control : s1.idex.output.control = c
  aluCtl : s1.idex.output.aluCtl = aluAdd
  rsIdx : s1.idex.output.rsIdx = rs
  rtIdx : s1.idex.output.rtIdx = rt
  rsVal : s1.idex.output.rsVal = Claims.reg s1.bank rs
  rtVal : s1.idex.output.rtVal = Claims.reg s1.bank rt
  address : s2.exmem.output.aluResult = s1.opA + imm.signExtend 32
  writeData : s2.exmem.output.writeData = s1.fwdB
  registerNum : s2.exmem.output.registerNum = rt
  regWrite : s2.exmem.output.regWrite = c.regWrite
  memRead : s2.exmem.output.memRead = c.memRead
  memWrite : s2.exmem.output.memWrite = c.memWrite
  memToReg : s2.exmem.output.memToReg = c.memToReg

/-- The signals on which the rows `OP_LW` and `OP_SW` of R109 agree. -/
theorem access_signals {c : Control} (h : c = Control.lw ∨ c = Control.sw) :
    c.aluSrc = true ∧ c.regDest = false ∧ c.isBranch = false ∧ c.isJump = false := by
  obtain rfl | rfl := h
  · exact ⟨rfl, rfl, rfl, rfl⟩
  · exact ⟨rfl, rfl, rfl, rfl⟩

theorem accessPath_of_cycles {s s1 s2 : State} {d d1 : Decoded} {opcode : Field6} {rs rt : RegIdx} {imm : Imm16}
    (hrow : d.ctl = Control.lw ∨ d.ctl = Control.sw) (halu : d.aluCtl = aluAdd)
    (hword : d.instr = itypeWord opcode rs rt imm) (h1 : s1 = s.cycle d) (h2 : s2 = s1.cycle d1) :
    AccessPath d.ctl rs rt imm s s1 s2 := by
  obtain ⟨hsrc, hdest, hbranch, hjump⟩ := access_signals hrow
  have hidex : s1.idex.output = s.decodeStage d := by rw [h1]; rfl
  have hexmem : s2.exmem.output = s1.executeStage := by rw [h2]; rfl
  have hcontrol : s1.idex.output.control = d.ctl := by rw [hidex]; rfl
  have hread : ∀ k, s.decodeRead k = Claims.reg s1.bank k := by intro k; rw [h1]; rfl
  have haluSrc : s1.idex.output.aluSrc = true := by rw [hidex, decodeStage_aluSrc, hsrc]
  have hregDest : s1.idex.output.regDest = false := by rw [hidex, decodeStage_regDest, hdest]
  have hrt : s1.idex.output.rtIdx = rt := by rw [hidex, decodeStage_rtIdx, hword, rtOf_itypeWord]
  have hctl : s1.idex.output.aluCtl = aluAdd := by rw [hidex, decodeStage_aluCtl, halu]
  have himm : s1.idex.output.imm = imm.signExtend 32 := by rw [hidex, decodeStage_imm, hword, immOf_itypeWord, sextImm]
  exact
    { pc := by rw [h1, cycle_pc, selectedPc_of_no_transfer hjump hbranch]
      control := hcontrol
      aluCtl := hctl
      rsIdx := by rw [hidex, decodeStage_rsIdx, hword, rsOf_itypeWord]
      rtIdx := hrt
      rsVal := by rw [hidex, decodeStage_rsVal, hword, rsOf_itypeWord, hread]
      rtVal := by rw [hidex, decodeStage_rtVal, hword, rtOf_itypeWord, hread]
      address := by
        rw [hexmem, executeStage_aluResult, aluResult_of_immediate haluSrc, hctl, alu_aluAdd, himm]
      writeData := by rw [hexmem, executeStage_writeData]
      registerNum := by rw [hexmem, executeStage_registerNum, dest_of_not_regDest hregDest, hrt]
      regWrite := by rw [hexmem]; exact congrArg Control.regWrite hcontrol
      memRead := by rw [hexmem]; exact congrArg Control.memRead hcontrol
      memWrite := by rw [hexmem]; exact congrArg Control.memWrite hcontrol
      memToReg := by rw [hexmem]; exact congrArg Control.memToReg hcontrol }

/-! ## The two instructions -/

/-- Settles O23: the shared path with the row of `OP_LW`, then the memory read and its write-back; the EX/MEM tap holds
the address, not yet the loaded word (R261). -/
theorem lwLoadsTheWord : Obligations.LwLoadsTheWord := by
  refine ⟨fun _ h => decode_of_opLw (opcodeOf_of_opcodeMask h), fun s rs rt imm hrst => ?_⟩
  obtain ⟨s1, s2, s3, s4, _, _, _, hexec, hstep1, hstep2, hstep3, h1, h2, h3, h4⟩ :=
    exec_then_three_steps (.lw rs rt imm) hrst
  have path : AccessPath Control.lw rs rt imm s s1 s2 := accessPath_of_cycles (.inl rfl) rfl rfl h1 h2
  have hmemwb : s3.memwb.output = s2.memoryStage := by rw [h3]; rfl
  have hvalue : s3.memwb.output.regWrData = memRead s2.cfg s2.dmem (s1.opA + imm.signExtend 32) true := by
    rw [hmemwb, memoryStage_regWrData, wbValue_of_load path.memToReg, path.address, path.memRead]
    rfl
  have hnum : s3.memwb.output.registerNum = rt := by rw [hmemwb, memoryStage_registerNum, path.registerNum]
  have hwrite : s3.memwb.output.regWrite = true := by rw [hmemwb, memoryStage_regWrite, path.regWrite]; rfl
  have htap : rt ≠ 0#5 → s2.exmemTap rt = true := fun hrt =>
    (exmemTap_iff s2 rt).2 ⟨path.regWrite, path.registerNum, hrt⟩
  refine ⟨s1, s2, s3, s4, hexec, hstep1, hstep2, hstep3, path.pc, path.control, path.aluCtl, path.rsIdx, path.rsVal,
    path.address, path.registerNum, hvalue, ?_, fun k => ?_, fun hrt => ⟨?_, fun v => ?_⟩⟩
  · rw [h3, cycle_dmem, dmemAfterMemory_of_no_store path.memWrite]
  · rw [h4, cycle_bank, reg_bankAfterWriteBack hwrite, hnum, hvalue]
  · rw [eqInput_of_exmemTap (htap hrt), path.address]
  · rw [forward_of_exmemTap (htap hrt), path.address]

/-- Settles O24: the shared path with the row of `OP_SW`, then the store of the four bytes; no signal writes a register. -/
theorem swStoresTheWord : Obligations.SwStoresTheWord := by
  refine ⟨fun _ h => decode_of_opSw (opcodeOf_of_opcodeMask h), fun s rs rt imm hrst => ?_⟩
  obtain ⟨s1, s2, s3, s4, _, _, _, hexec, hstep1, hstep2, hstep3, h1, h2, h3, h4⟩ :=
    exec_then_three_steps (.sw rs rt imm) hrst
  have path : AccessPath Control.sw rs rt imm s s1 s2 := accessPath_of_cycles (.inr rfl) rfl rfl h1 h2
  have hwrite : s3.memwb.output.regWrite = false := by
    rw [h3, cycle_memwb, latched_output, memoryStage_regWrite, path.regWrite]
    rfl
  refine ⟨s1, s2, s3, s4, hexec, hstep1, hstep2, hstep3, path.pc, path.control, path.aluCtl, path.rsIdx, path.rtIdx,
    path.rsVal, path.rtVal, path.address, path.writeData, fun a => ?_, ?_⟩
  · rw [h3, cycle_dmem, byteAt_dmemAfterMemory_of_store path.memWrite, path.address, path.writeData]
  · rw [h4, cycle_bank, bankAfterWriteBack_of_no_write hwrite]

end Sys2Proof.Machine
end

section
/-! BEQ and J: the next address selected in decode, the empty rest of their path, and the priority of the jump (R280 to
R287). -/

namespace Sys2Proof

theorem decode_of_opBeq {w : Word} (h : opcodeOf w = opBeq) : decode w = .beq (rsOf w) (rtOf w) (immOf w) := by
  rw [decode, h]; rfl

theorem decode_of_opJ {w : Word} (h : opcodeOf w = opJ) : decode w = .j (targetOf w) := by
  rw [decode, h]; rfl

end Sys2Proof

namespace Sys2Proof.Machine

/-! ## The program-counter mux, one equation per transfer (R166, R287) -/

/-- The jump signal selects the jump's address without looking at the branch. -/
@[simp] theorem nextPcMux_of_jump (pc imm : Word) (target : Target26) (isBranch equal : Bool) :
    nextPcMux pc imm target isBranch equal true = jumpAddr pc target :=
  if_pos rfl

theorem selectedPc_of_jump {s : State} {d : Decoded} (h : d.ctl.isJump = true) :
    s.selectedPc d = jumpAddr s.idex.output.nextPc (targetOf d.instr) := by
  rw [State.selectedPc, h, nextPcMux_of_jump]

theorem selectedPc_of_branch {s : State} {d : Decoded} (hjump : d.ctl.isJump = false)
    (hbranch : d.ctl.isBranch = true) :
    s.selectedPc d =
      if s.eqInput (rsOf d.instr) = s.eqInput (rtOf d.instr) then
        branchAddr s.idex.output.nextPc (sextImm (immOf d.instr))
      else s.idex.output.nextPc + 4#32 := by
  simp [selectedPc_eq, hjump, hbranch]

/-- No row of R109 has both transfer signals. -/
theorem not_branch_and_jump_of_issued (i : Instr) :
    ¬ ((issued i).ctl.isBranch = true ∧ (issued i).ctl.isJump = true) := by
  have hrows : ∀ c ∈ controlRows, ¬ (c.isBranch = true ∧ c.isJump = true) := by decide
  exact hrows _ (issued_ctl_mem i)

/-! ## The path of an instruction that acts in decode only -/

/-- Where no signal but those of the mux is set, execute computes on the two registers, and neither the memory cycle nor
the write-back cycle changes anything. -/
theorem noEffectPath_of_exec {i : Instr} {s : State} (isBranch isJump : Bool) (hrst : s.rst = false)
    (hctl : (issued i).ctl = { Control.none with isBranch := isBranch, isJump := isJump }) :
    ∃ s1 s2 s3 s4, exec i s = .next s1 ∧ step s1 = .next s2 ∧ step s2 = .next s3 ∧ step s3 = .next s4 ∧
      s1 = s.cycle (issued i) ∧ s2.exmem.output.aluResult = alu (issued i).aluCtl s1.opA s1.fwdB ∧
      Claims.NoEffectPath s2 s3 s4 := by
  obtain ⟨s1, s2, s3, s4, _, _, _, hexec, hstep1, hstep2, hstep3, h1, h2, h3, h4⟩ := exec_then_three_steps i hrst
  have hidex : s1.idex.output = s.decodeStage (issued i) := by rw [h1]; rfl
  have hexmem : s2.exmem.output = s1.executeStage := by rw [h2]; rfl
  have hcontrol : s1.idex.output.control = { Control.none with isBranch := isBranch, isJump := isJump } := by
    rw [hidex]; exact hctl
  have hresult : s2.exmem.output.aluResult = alu (issued i).aluCtl s1.opA s1.fwdB := by
    rw [hexmem, executeStage_aluResult, aluResult_of_registers (congrArg Control.aluSrc hcontrol), hidex,
      decodeStage_aluCtl]
  have hwrite : s2.exmem.output.regWrite = false := by rw [hexmem]; exact congrArg Control.regWrite hcontrol
  have hstore : s2.exmem.output.memWrite = false := by rw [hexmem]; exact congrArg Control.memWrite hcontrol
  have hload : s2.exmem.output.memRead = false := by rw [hexmem]; exact congrArg Control.memRead hcontrol
  have hwrite' : s3.memwb.output.regWrite = false := by
    rw [h3, cycle_memwb, latched_output, memoryStage_regWrite, hwrite]
  have hdmem : s3.dmem = s2.dmem := by rw [h3, cycle_dmem, dmemAfterMemory_of_no_store hstore]
  have hbank : s4.bank = s3.bank := by rw [h4, cycle_bank, bankAfterWriteBack_of_no_write hwrite']
  exact ⟨s1, s2, s3, s4, hexec, hstep1, hstep2, hstep3, h1, hresult, hwrite, hstore, hload, hwrite', hdmem, hbank⟩

/-! ## The two instructions and the mux -/

/-- What BEQ selects: both inputs of the equality unit decide (R165, R280). -/
theorem selectedPc_of_beq (s : State) (rs rt : RegIdx) (imm : Imm16) :
    s.selectedPc (issued (.beq rs rt imm)) =
      if s.eqInput rs = s.eqInput rt then s.idex.output.nextPc + 4#32 + (imm.signExtend 32 <<< 2)
      else s.idex.output.nextPc + 4#32 := by
  rw [selectedPc_of_branch rfl rfl, issued_instr, encode, rsOf_itypeWord, rtOf_itypeWord, immOf_itypeWord, branchAddr,
    sextImm]

/-- What J selects: the region of `pc + 4` joined with its target (R104, R281). -/
theorem selectedPc_of_j (s : State) (target : Target26) :
    s.selectedPc (issued (.j target)) =
      ((s.idex.output.nextPc + 4#32) &&& 0xF0000000#32) ||| (target.setWidth 32 <<< 2) := by
  rw [selectedPc_of_jump rfl, issued_instr, encode, targetOf_jtypeWord, jumpAddr]

/-- Settles O28: the mux on the equality unit's inputs, whose bank is the one after this cycle's write-back; then the path
without an effect, with `ALU_SUB` in execute. -/
theorem beqSelectsItsTarget : Obligations.BeqSelectsItsTarget := by
  refine ⟨fun _ h => decode_of_opBeq (opcodeOf_of_opcodeMask h), fun s rs rt imm hrst => ?_⟩
  obtain ⟨s1, s2, s3, s4, hexec, hstep1, hstep2, hstep3, h1, hresult, hpath⟩ :=
    noEffectPath_of_exec (i := .beq rs rt imm) true false hrst rfl
  have hbank : s1.bank = s.bankAfterWriteBack := by rw [h1, cycle_bank]
  have hpc := selectedPc_of_beq s rs rt imm
  rw [← cycle_pc, ← h1, eqInput_eq, eqInput_eq, ← hbank] at hpc
  refine ⟨s1, s2, s3, s4, hexec, hstep1, hstep2, hstep3, hpc, ?_, ?_, hresult, hpath⟩
  · rw [h1]; rfl
  · rw [h1]; rfl

/-- Settles O29: the jump's side of the mux, then the path without an effect, with the invalid ALU code in execute. -/
theorem jSelectsItsTarget : Obligations.JSelectsItsTarget := by
  refine ⟨fun _ h => decode_of_opJ (opcodeOf_of_opcodeMask h), fun s target hrst => ?_⟩
  obtain ⟨s1, s2, s3, s4, hexec, hstep1, hstep2, hstep3, h1, hresult, hpath⟩ :=
    noEffectPath_of_exec (i := .j target) false true hrst rfl
  refine ⟨s1, s2, s3, s4, hexec, hstep1, hstep2, hstep3, ?_, ?_, ?_, hresult, hpath⟩
  · rw [h1, cycle_pc, selectedPc_of_j]
  · rw [h1]; rfl
  · rw [h1]; rfl

/-- Settles O33: the jump's side of the mux, and the control rows of R109 that a cycle can put into ID/EX. -/
theorem jumpHasPriorityOverBranch : Obligations.JumpHasPriorityOverBranch := by
  refine ⟨nextPcMux_of_jump, fun s t hrst hstep => ?_⟩
  obtain ⟨hset, _⟩ | ⟨_, rfl⟩ := step_cases hstep
  · exact absurd (hrst.symm.trans hset) Bool.false_ne_true
  · rw [cycle_idex, latched_input, decodeStage_isBranch, decodeStage_isJump]
    exact not_branch_and_jump_of_issued _

end Sys2Proof.Machine
end

section
/-! The words that are none of the nine instructions: the zero that an unmapped funct leaves in `rd`, and the empty path of
an unmapped opcode (R300, R301). -/

namespace Sys2Proof

/-! ## The catch-all rows of the decoder (R105, R106, R112) -/

theorem decodeRtype_of_unmapped {w : Word} (h : functOf w ∉ mappedFuncts) :
    decodeRtype w = .rtypeUnmappedFunct (rsOf w) (rtOf w) (rdOf w) (shamtOf w) (functOf w) := by
  simp only [mem_mappedFuncts, not_or] at h
  obtain ⟨hadd, hsub, hand, hor, hslt⟩ := h
  rw [decodeRtype, if_neg hadd, if_neg hsub, if_neg hand, if_neg hor, if_neg hslt]

theorem decode_of_opRtype {w : Word} (h : opcodeOf w = opRtype) : decode w = decodeRtype w :=
  if_pos h

theorem decode_of_unmapped {w : Word} (h : opcodeOf w ∉ mappedOpcodes) :
    decode w = .unmappedOpcode (opcodeOf w) (targetOf w) := by
  simp only [mem_mappedOpcodes, not_or] at h
  obtain ⟨hrtype, hj, hbeq, hlw, hsw⟩ := h
  rw [decode, if_neg hrtype, if_neg hj, if_neg hbeq, if_neg hlw, if_neg hsw]

end Sys2Proof

namespace Sys2Proof.Machine

/-! ## What the instructions behind a register-type instruction are forwarded (R165, R170, R176) -/

/-- Where only the MEM/WB tap matches, the forwarding unit passes the write-back value on, whatever was latched (R170). -/
theorem forward_of_memwbTap {s : State} {i : RegIdx} (hexmem : s.exmemTap i = false) (hmemwb : s.memwbTap i = true)
    (v : Word) : s.forward i v = s.memwb.output.regWrData := by
  simp [State.forward, hexmem, hmemwb]

/-- A register-type result with a destination other than 0: while it is in EX/MEM the equality unit and the forwarding unit
take it, and while it is in MEM/WB the forwarding unit takes it unless the instruction between writes `rd` again. -/
theorem rtypePath_forwards {rs rt rd : RegIdx} {r : Word} {s s1 s2 s3 s4 : State}
    (path : Claims.RtypePath rs rt rd r s s1 s2 s3 s4) (hrd : rd ≠ 0#5) :
    s2.eqInput rd = r ∧ (∀ v, s2.forward rd v = r) ∧ (s3.exmemTap rd = false → ∀ v, s3.forward rd v = r) := by
  obtain ⟨-, -, -, -, -, -, hresult, hdest, hwrite, hvalue, hnum, hwrite', -, -⟩ := path
  have hexmem : s2.exmemTap rd = true := (exmemTap_iff s2 rd).2 ⟨hwrite, hdest, hrd⟩
  have hmemwb : s3.memwbTap rd = true := (memwbTap_iff s3 rd).2 ⟨hwrite', hnum, hrd⟩
  refine ⟨?_, fun v => ?_, fun hfree v => ?_⟩
  · rw [eqInput_of_exmemTap hexmem, hresult]
  · rw [forward_of_exmemTap hexmem, hresult]
  · rw [forward_of_memwbTap hfree hmemwb, hvalue]

/-! ## The two kinds of word -/

/-- Settles O22: the path of a register-type instruction with the invalid ALU code, whose result is 0 on all operands. -/
theorem unmappedFunctWritesZero : Obligations.UnmappedFunctWritesZero := by
  refine ⟨fun w hw hfunct => ?_, fun s rs rt rd shamt funct hrst _ => ?_⟩
  · rw [decode_of_opRtype (opcodeOf_of_opcodeMask hw), decodeRtype_of_unmapped hfunct]
  · obtain ⟨s1, s2, s3, s4, hexec, hstep1, hstep2, hstep3, haluCtl, path⟩ :=
      rtypePath_of_exec (i := .rtypeUnmappedFunct rs rt rd shamt funct) (fun _ _ => 0#32) hrst rfl rfl alu_aluInvalid
    exact ⟨s1, s2, s3, s4, hexec, hstep1, hstep2, hstep3, haluCtl, path, rtypePath_forwards path⟩

/-- Settles O30: the path without an effect with every signal of the mux off too, and the invalid ALU code in execute. -/
theorem unmappedOpcodeHasNoEffect : Obligations.UnmappedOpcodeHasNoEffect := by
  refine ⟨fun _ hopcode => decode_of_unmapped hopcode, fun s opcode rest hrst _ => ?_⟩
  obtain ⟨s1, s2, s3, s4, hexec, hstep1, hstep2, hstep3, h1, hresult, hpath⟩ :=
    noEffectPath_of_exec (i := .unmappedOpcode opcode rest) false false hrst rfl
  refine ⟨s1, s2, s3, s4, hexec, hstep1, hstep2, hstep3, ?_, ?_, ?_, hresult, hpath⟩
  · rw [h1, cycle_pc, selectedPc_of_no_transfer rfl rfl]
  · rw [h1]; rfl
  · rw [h1]; rfl

end Sys2Proof.Machine
end

section
/-! The encoding as a whole: decoding undoes encoding, and the decoder is the opcode table's masks by priority (R101 to
R112). -/

namespace Sys2Proof

/-! ## Decoding undoes encoding -/

theorem decode_rtypeWord (rs rt rd shamt : RegIdx) (funct : Field6) :
    decode (rtypeWord rs rt rd shamt funct) = decodeRtype (rtypeWord rs rt rd shamt funct) :=
  decode_of_opRtype (opcodeOf_rtypeWord ..)

/-- Decoding the word of a well-formed instruction: its opcode, and its funct in a register-type row, select the row, and
the row reads back every field. -/
theorem decode_encode {i : Instr} (h : i.wellFormed = true) : decode (encode i) = i := by
  cases i with
  | add rs rt rd shamt => simp [encode, decode_rtypeWord, decodeRtype_of_functAdd]
  | sub rs rt rd shamt => simp [encode, decode_rtypeWord, decodeRtype_of_functSub]
  | and rs rt rd shamt => simp [encode, decode_rtypeWord, decodeRtype_of_functAnd]
  | or rs rt rd shamt => simp [encode, decode_rtypeWord, decodeRtype_of_functOr]
  | slt rs rt rd shamt => simp [encode, decode_rtypeWord, decodeRtype_of_functSlt]
  | lw rs rt imm => simp [encode, decode_of_opLw]
  | sw rs rt imm => simp [encode, decode_of_opSw]
  | beq rs rt imm => simp [encode, decode_of_opBeq]
  | j target => simp [encode, decode_of_opJ]
  | rtypeUnmappedFunct rs rt rd shamt funct =>
    have hfunct : functOf (rtypeWord rs rt rd shamt funct) ∉ mappedFuncts :=
      (Laws.OpcodeRow.rtypeUnmappedFunct rs rt rd shamt funct h).2
    simp [encode, decode_rtypeWord, decodeRtype_of_unmapped hfunct]
  | unmappedOpcode opcode rest =>
    have hopcode : opcodeOf (jtypeWord opcode rest) ∉ mappedOpcodes :=
      Laws.OpcodeRow.unmappedOpcode opcode rest h
    simp [encode, decode_of_unmapped hopcode]

/-- Settles O2: the fields of a row come back from where the encoder puts them. -/
theorem decodeOfEncode : Obligations.DecodeOfEncode := fun _ h => decode_encode h

/-- Settles O3: encoding undoes decoding on every word, and decoding undoes encoding on every well-formed instruction. -/
theorem everyWordIsOneInstruction : Obligations.EveryWordIsOneInstruction := by
  intro w
  refine ⟨decode_wellFormed w, encode_decode w, fun i hi hw => ?_⟩
  rw [← hw, decode_encode hi]

/-- Settles O1: one word of each row. -/
theorem sampleWordsDecode : Obligations.SampleWordsDecode := by
  unfold Obligations.SampleWordsDecode
  decide

/-! ## The masks of the opcode table -/

/-- What the mask of an opcode row leaves of a word. -/
theorem and_opcodeMask (w : Word) : w &&& 0xFC000000#32 = opcodeOf w ++ 0#26 := by
  have hmask : 0xFC000000#32 = BitVec.allOnes 6 ++ 0#26 := by decide
  conv_lhs => rw [← jtype_fields_append w, hmask]
  rw [BitVec.and_append, BitVec.and_allOnes, BitVec.and_zero]

/-- What the mask of a register-type row leaves of a word. -/
theorem and_rtypeMask (w : Word) :
    w &&& 0xFC00003F#32 = opcodeOf w ++ 0#5 ++ 0#5 ++ 0#5 ++ 0#5 ++ functOf w := by
  have hmask : 0xFC00003F#32 = BitVec.allOnes 6 ++ 0#5 ++ 0#5 ++ 0#5 ++ 0#5 ++ BitVec.allOnes 6 := by decide
  conv_lhs => rw [← rtype_fields_append w, hmask]
  rw [BitVec.and_append, BitVec.and_append, BitVec.and_append, BitVec.and_append, BitVec.and_append, BitVec.and_allOnes,
    BitVec.and_zero, BitVec.and_zero, BitVec.and_zero, BitVec.and_zero, BitVec.and_allOnes]

/-- A word matches an opcode row exactly when it has the row's opcode. -/
theorem matches_opcode_iff {w row : Word} {opcode : Field6} (hrow : row = opcode ++ 0#26) :
    w &&& 0xFC000000#32 = row ↔ opcodeOf w = opcode := by
  subst hrow
  constructor
  · intro h
    exact (opcodeOf_of_opcodeMask h).trans (opcodeOf_jtypeWord opcode 0#26)
  · rintro rfl
    exact and_opcodeMask w

/-- A word matches a register-type row exactly when it is a register-type word with the row's funct. -/
theorem matches_rtype_iff {w row : Word} {funct : Field6} (hrow : row = rtypeWord 0#5 0#5 0#5 0#5 funct) :
    w &&& 0xFC00003F#32 = row ↔ opcodeOf w = opRtype ∧ functOf w = funct := by
  subst hrow
  constructor
  · intro h
    rw [← opcodeOf_and_rtypeMask, ← functOf_and_rtypeMask, h]
    exact ⟨opcodeOf_rtypeWord .., functOf_rtypeWord ..⟩
  · rintro ⟨hop, rfl⟩
    rw [and_rtypeMask, hop, rtypeWord]

/-! ## The decoder against the rows -/

/-- The decoder answers an instruction exactly on the words of its row `R`, when the encoder puts the instruction into `R`
and the decoder answers it there. -/
theorem row_iff_decode {w : Word} {i : Instr} (R : Word → Prop) (hrow : i.wellFormed = true → R (encode i))
    (hdecode : R w → decode w = i) : R w ↔ decode w = i := by
  refine ⟨hdecode, ?_⟩
  rintro rfl
  simpa only [encode_decode] using hrow (decode_wellFormed w)

/-- The row of a register-type instruction. -/
theorem matches_rtype_iff_decode {w row : Word} {i : Instr} {funct : Field6}
    (hrow : row = rtypeWord 0#5 0#5 0#5 0#5 funct)
    (hi : i.wellFormed = true → opcodeOf (encode i) = opRtype ∧ functOf (encode i) = funct)
    (hdecode : functOf w = funct → decodeRtype w = i) : w &&& 0xFC00003F#32 = row ↔ decode w = i := by
  rw [matches_rtype_iff hrow]
  refine row_iff_decode (fun w => opcodeOf w = opRtype ∧ functOf w = funct) hi ?_
  rintro ⟨hop, hfunct⟩
  rw [decode_of_opRtype hop, hdecode hfunct]

/-- The row of an instruction that its opcode alone selects. -/
theorem matches_opcode_iff_decode {w row : Word} {i : Instr} {opcode : Field6} (hrow : row = opcode ++ 0#26)
    (hi : i.wellFormed = true → opcodeOf (encode i) = opcode) (hdecode : opcodeOf w = opcode → decode w = i) :
    w &&& 0xFC000000#32 = row ↔ decode w = i := by
  rw [matches_opcode_iff hrow]
  exact row_iff_decode (fun w => opcodeOf w = opcode) hi hdecode

/-- No register-type row matches a register-type word exactly when its funct is unmapped (R300). -/
theorem matches_unmappedFunct_iff (w : Word) :
    (w &&& 0xFC000000#32 = 0x00000000#32 ∧
        ∀ m ∈ [0x20#32, 0x22#32, 0x24#32, 0x25#32, 0x2A#32], w &&& 0xFC00003F#32 ≠ m) ↔
      opcodeOf w = opRtype ∧ functOf w ∉ mappedFuncts := by
  have hop : w &&& 0xFC000000#32 = 0x00000000#32 ↔ opcodeOf w = opRtype := matches_opcode_iff (by decide)
  have hadd : w &&& 0xFC00003F#32 = 0x20#32 ↔ opcodeOf w = opRtype ∧ functOf w = functAdd :=
    matches_rtype_iff (by decide)
  have hsub : w &&& 0xFC00003F#32 = 0x22#32 ↔ opcodeOf w = opRtype ∧ functOf w = functSub :=
    matches_rtype_iff (by decide)
  have hand : w &&& 0xFC00003F#32 = 0x24#32 ↔ opcodeOf w = opRtype ∧ functOf w = functAnd :=
    matches_rtype_iff (by decide)
  have hor : w &&& 0xFC00003F#32 = 0x25#32 ↔ opcodeOf w = opRtype ∧ functOf w = functOr :=
    matches_rtype_iff (by decide)
  have hslt : w &&& 0xFC00003F#32 = 0x2A#32 ↔ opcodeOf w = opRtype ∧ functOf w = functSlt :=
    matches_rtype_iff (by decide)
  rw [hop]
  refine and_congr_right fun h => ?_
  simp [h, hadd, hsub, hand, hor, hslt, mem_mappedFuncts]

/-- No opcode row matches a word exactly when its opcode is unmapped (R301). -/
theorem matches_unmappedOpcode_iff (w : Word) :
    (∀ m ∈ [0x00000000#32, 0x8C000000#32, 0xAC000000#32, 0x10000000#32, 0x08000000#32], w &&& 0xFC000000#32 ≠ m) ↔
      opcodeOf w ∉ mappedOpcodes := by
  have hrtype : w &&& 0xFC000000#32 = 0x00000000#32 ↔ opcodeOf w = opRtype := matches_opcode_iff (by decide)
  have hlw : w &&& 0xFC000000#32 = 0x8C000000#32 ↔ opcodeOf w = opLw := matches_opcode_iff (by decide)
  have hsw : w &&& 0xFC000000#32 = 0xAC000000#32 ↔ opcodeOf w = opSw := matches_opcode_iff (by decide)
  have hbeq : w &&& 0xFC000000#32 = 0x10000000#32 ↔ opcodeOf w = opBeq := matches_opcode_iff (by decide)
  have hj : w &&& 0xFC000000#32 = 0x08000000#32 ↔ opcodeOf w = opJ := matches_opcode_iff (by decide)
  grind [mem_mappedOpcodes]

/-- Settles O4: row by row, the mask selects the opcode and the funct that the decoder tests and the encoder writes. -/
theorem decodeFollowsOpcodeTable : Obligations.DecodeFollowsOpcodeTable := by
  intro w
  refine ⟨?_, ?_, ?_, ?_, ?_, ?_, ?_, ?_, ?_, ?_, ?_⟩
  · exact matches_rtype_iff_decode (by decide) (Laws.OpcodeRow.add _ _ _ _) decodeRtype_of_functAdd
  · exact matches_rtype_iff_decode (by decide) (Laws.OpcodeRow.sub _ _ _ _) decodeRtype_of_functSub
  · exact matches_rtype_iff_decode (by decide) (Laws.OpcodeRow.and _ _ _ _) decodeRtype_of_functAnd
  · exact matches_rtype_iff_decode (by decide) (Laws.OpcodeRow.or _ _ _ _) decodeRtype_of_functOr
  · exact matches_rtype_iff_decode (by decide) (Laws.OpcodeRow.slt _ _ _ _) decodeRtype_of_functSlt
  · exact matches_opcode_iff_decode (by decide) (Laws.OpcodeRow.lw _ _ _) decode_of_opLw
  · exact matches_opcode_iff_decode (by decide) (Laws.OpcodeRow.sw _ _ _) decode_of_opSw
  · exact matches_opcode_iff_decode (by decide) (Laws.OpcodeRow.beq _ _ _) decode_of_opBeq
  · exact matches_opcode_iff_decode (by decide) (Laws.OpcodeRow.j _) decode_of_opJ
  · rw [matches_unmappedFunct_iff]
    refine row_iff_decode (fun w => opcodeOf w = opRtype ∧ functOf w ∉ mappedFuncts)
      (Laws.OpcodeRow.rtypeUnmappedFunct _ _ _ _ _) ?_
    rintro ⟨hop, hfunct⟩
    rw [decode_of_opRtype hop, decodeRtype_of_unmapped hfunct]
  · rw [matches_unmappedOpcode_iff]
    exact row_iff_decode (fun w => opcodeOf w ∉ mappedOpcodes) (Laws.OpcodeRow.unmappedOpcode _ _) decode_of_unmapped

end Sys2Proof
end

section
/-! The invariant of the machine: it holds after construction, every step keeps it, and so does every host preload (R31, R36,
R38, R150, R164, R366). -/

namespace Sys2Proof.Machine

/-! ## Next addresses are multiples of 4 (R38) -/

/-- The low two bits of an address. -/
theorem lowBits_eq_setWidth (a : Word) : a.extractLsb' 0 2 = a.setWidth 2 :=
  (BitVec.setWidth_eq_extractLsb' (by decide)).symm

theorem lowBits_add_four {pc : Word} (h : pc.extractLsb' 0 2 = 0#2) : (pc + 4#32).extractLsb' 0 2 = 0#2 := by
  rw [lowBits_eq_setWidth] at h ⊢
  rw [BitVec.setWidth_add _ _ (by decide), h]
  decide

theorem lowBits_shift_two (a : Word) : (a <<< 2).extractLsb' 0 2 = 0#2 := by
  ext i hi
  simp only [BitVec.getElem_extractLsb', BitVec.getLsbD_shiftLeft]
  grind

theorem lowBits_branchAddr {pc : Word} (h : pc.extractLsb' 0 2 = 0#2) (imm : Word) :
    (branchAddr pc imm).extractLsb' 0 2 = 0#2 := by
  have hpc := lowBits_add_four h
  have himm := lowBits_shift_two imm
  rw [lowBits_eq_setWidth] at hpc himm ⊢
  rw [branchAddr, BitVec.setWidth_add _ _ (by decide), hpc, himm]
  decide

theorem lowBits_jumpAddr (pc : Word) (target : Target26) : (jumpAddr pc target).extractLsb' 0 2 = 0#2 := by
  have hregion : (0xF0000000#32).extractLsb' 0 2 = 0#2 := by decide
  rw [jumpAddr, BitVec.extractLsb'_or, BitVec.extractLsb'_and, lowBits_shift_two, hregion]
  simp

/-- Whatever the mux of decode selects is a multiple of 4, when ID/EX's next address is. -/
theorem lowBits_selectedPc {s : State} (h : s.idex.output.nextPc.extractLsb' 0 2 = 0#2) (d : Decoded) :
    (s.selectedPc d).extractLsb' 0 2 = 0#2 := by
  rw [selectedPc_eq]
  split_ifs
  · exact lowBits_jumpAddr _ _
  · exact lowBits_branchAddr h _
  · exact lowBits_add_four h

/-! ## The clauses of the invariant, after a cycle -/

theorem storesWf_cycle {s : State} (h : s.StoresWf) (d : Decoded) : (s.cycle d).StoresWf :=
  ⟨memWrite_wf h.1 _ _ _, h.2⟩

theorem zeroRegister_cycle {s : State} (h : s.ZeroRegister) (d : Decoded) : (s.cycle d).ZeroRegister :=
  (bankWrite_entry_zero ..).trans h

theorem pcAgrees_cycle {s : State} (h : s.PcAgrees) (d : Decoded) : (s.cycle d).PcAgrees :=
  ⟨rfl, lowBits_selectedPc (h.1 ▸ h.2) d⟩

theorem latchesSettled_cycle (s : State) (d : Decoded) : (s.cycle d).LatchesSettled := ⟨rfl, rfl, rfl, rfl⟩

theorem operandsLatched_cycle (s : State) (d : Decoded) : (s.cycle d).OperandsLatched := ⟨rfl, rfl, rfl, rfl, rfl, rfl⟩

/-- The row that ID/EX holds moves on into EX/MEM. -/
theorem controlLegal_cycle {s : State} (h : s.ControlLegal) (i : Instr) : (s.cycle (issued i)).ControlLegal :=
  ⟨issued_ctl_mem i, issued_aluCtl_mem i, s.idex.output.control, h.1, rfl, rfl, rfl, rfl⟩

theorem inv_cycle {s : State} (h : s.Inv) (i : Instr) : (s.cycle (issued i)).Inv := by
  obtain ⟨hstores, hzero, hpc, -, -, hctl⟩ := h
  exact ⟨storesWf_cycle hstores _, zeroRegister_cycle hzero _, pcAgrees_cycle hpc _, latchesSettled_cycle s _,
    operandsLatched_cycle s _, controlLegal_cycle hctl i⟩

/-! ## Before the first cycle (R360, R366) -/

/-- A machine that no cycle has run in since construction or the reset edge: `PC` and every pipeline register are 0, and the
stores and register 0 are in order. -/
structure State.NotStarted (s : State) : Prop where
  stores : s.StoresWf
  zero : s.ZeroRegister
  pc : s.pc = 0#32
  ifid : s.ifid = latched IfId.zero
  idex : s.idex = latched IdEx.zero
  exmem : s.exmem = latched ExMem.zero
  memwb : s.memwb = latched MemWb.zero

/-- The all-zero records of the pipeline registers meet the clauses of the invariant. -/
theorem inv_of_notStarted {s : State} (h : s.NotStarted) : s.Inv := by
  obtain ⟨hstores, hzero, hpc, hifid, hidex, hexmem, hmemwb⟩ := h
  refine ⟨hstores, hzero, ?_, ?_, ?_, ?_⟩
  · rw [State.PcAgrees, hpc, hidex]
    decide
  · rw [State.LatchesSettled, hifid, hidex, hexmem, hmemwb]
    exact ⟨rfl, rfl, rfl, rfl⟩
  · rw [State.OperandsLatched, hidex]
    exact ⟨by decide, by decide, by decide, by decide, rfl, rfl⟩
  · rw [State.ControlLegal, hidex, hexmem]
    decide

theorem notStarted_construct (cfg : Config) : (State.construct cfg).NotStarted :=
  ⟨construct_wf cfg, rfl, rfl, rfl, rfl, rfl, rfl⟩

theorem notStarted_resetEdge {s : State} (hstores : s.StoresWf) (hzero : s.ZeroRegister) : s.resetEdge.NotStarted :=
  ⟨hstores, hzero, rfl, rfl, rfl, rfl, rfl⟩

/-- A host preload reaches the three collaborators only, and the bank through its write port. -/
theorem notStarted_hostAct {s : State} (h : s.NotStarted) (a : HostAction) : (s.hostAct a).NotStarted := by
  have hstores := hostAct_wf h.stores.1 h.stores.2 a
  cases a with
  | loadWord addr word => exact { h with stores := hstores }
  | setRegister i v => exact { h with stores := hstores, zero := (bankWrite_entry_zero ..).trans h.zero }
  | setByte addr v => exact { h with stores := hstores }
  | setWord addr v => exact { h with stores := hstores }

theorem notStarted_boot (cfg : Config) (actions : List HostAction) : (State.boot cfg actions).NotStarted :=
  List.foldlRecOn actions State.hostAct (notStarted_construct cfg) fun _ h a _ => notStarted_hostAct h a

/-! ## The statements -/

/-- Settles O42: construction is a machine that has not started. -/
theorem constructionMeetsTheInvariant : Obligations.ConstructionMeetsTheInvariant :=
  fun cfg => inv_of_notStarted (notStarted_construct cfg)

/-- Settles O43: the reset edge goes back before the first cycle, and a cycle keeps each clause. -/
theorem everyStepKeepsTheInvariant : Obligations.EveryStepKeepsTheInvariant := by
  intro s t hinv hstep
  obtain ⟨_, rfl⟩ | ⟨_, rfl⟩ := step_cases hstep
  · obtain ⟨hstores, hzero, -⟩ := hinv
    exact inv_of_notStarted (notStarted_resetEdge hstores hzero)
  · exact inv_cycle hinv _

/-- Settles O41: index 0 is no forwarding target, so execute takes the latched value, which is the bank's. -/
theorem registerZeroIsAlwaysZero : Obligations.RegisterZeroIsAlwaysZero := by
  intro s hinv
  obtain ⟨-, -, -, -, ⟨-, -, -, -, hrsVal, hrtVal⟩, -⟩ := hinv
  refine ⟨rfl, eqInput_zero s, fun hrs => ?_, fun hrt => ?_⟩
  · rw [State.opA, hrs, forward_zero, hrsVal, hrs, bankRead_zero]
  · rw [State.fwdB, hrt, forward_zero, hrtVal, hrt, bankRead_zero]

/-! ## What a host preload writes (R32, R366) -/

theorem reg_hostAct_setRegister (s : State) (k j : RegIdx) (v : Word) :
    Claims.reg (s.hostAct (.setRegister k v)).bank j = if j = k ∧ k ≠ 0#5 then v else Claims.reg s.bank j := by
  show bankRead (bankWrite s.bank k v true) j = _
  simp only [bankRead_bankWrite, true_and, and_comm, reg_eq_bankRead]

theorem byteAt_hostAct_setByte (s : State) (addr : Word) (b : Byte) (a : Nat) :
    byteAt (s.hostAct (.setByte addr b)).dmem a =
      if addr.toNat < s.cfg.dmemBytes ∧ a = addr.toNat then b else byteAt s.dmem a := by
  by_cases h : addr.toNat < s.cfg.dmemBytes
  · simp [State.hostAct, byteAt, storeRead_storeWrite, h]
  · simp [State.hostAct, h]

theorem hostAct_setByte_outside {s : State} {addr : Word} (h : s.cfg.dmemBytes ≤ addr.toNat) (b : Byte) :
    s.hostAct (.setByte addr b) = s := by
  simp [State.hostAct, Nat.not_lt.2 h]

/-- Settles O47: preloads act before the first cycle, each through the write of its one store. -/
theorem preloadsKeepTheInvariant : Obligations.PreloadsKeepTheInvariant := by
  refine ⟨fun cfg actions => inv_of_notStarted (notStarted_boot cfg actions), fun s k j v addr word b a => ?_⟩
  exact ⟨reg_hostAct_setRegister s k j v, rfl, byteAt_hostAct_setByte s addr b a, rfl,
    fun h => hostAct_setByte_outside h b, rfl, rfl⟩

/-- What a write of the instruction store does to every read of it (R72, R73). -/
theorem imemRead_imemWrite (c : Config) (m : InstrStore) (addr value other : Word) :
    imemRead c (imemWrite c m addr value) other =
      if wordIndex addr < c.imemWords ∧ wordIndex other = wordIndex addr then value else imemRead c m other := by
  by_cases haddr : wordIndex addr < c.imemWords
  · by_cases hother : wordIndex other = wordIndex addr
    · simp [imemRead, imemWrite, storeRead_storeWrite, haddr, hother]
    · simp [imemRead, imemWrite, storeRead_storeWrite, haddr, hother]
  · simp [imemWrite, haddr]

theorem imemWrite_outside {c : Config} {addr : Word} (h : c.imemWords ≤ wordIndex addr) (m : InstrStore) (value : Word) :
    imemWrite c m addr value = m :=
  if_neg (Nat.not_lt.2 h)

theorem imemRead_outside {c : Config} {addr : Word} (h : c.imemWords ≤ wordIndex addr) (m : InstrStore) :
    imemRead c m addr = 0#32 :=
  if_neg (Nat.not_lt.2 h)

/-- Settles O46: a write in range is read back at its word index, and a write or a read out of range does nothing. -/
theorem instructionStoreWriteThenRead : Obligations.InstructionStoreWriteThenRead := by
  intro c m addr value other
  exact ⟨imemRead_imemWrite c m addr value other, fun h => ⟨imemWrite_outside h m value, imemRead_outside h m⟩⟩

/-- Settles O17: the stores hold no entry, and every entry of the bank is 0. -/
theorem resetStoresReadZero : Obligations.ResetStoresReadZero := by
  intro cfg k a addr
  refine ⟨?_, rfl, ?_⟩
  · simp [Claims.reg]
  · simp [imemRead]

end Sys2Proof.Machine
end

section
/-! The step: it is the decoded instruction's cycle and the flat datapath's, it always answers, and what one cycle leaves
alone or never reads (R141, R152, R202, R320, R362). -/

namespace Sys2Proof.Machine

/-! ## The step is the cycle of the decoded word -/

theorem step_eq_exec {s : State} (h : s.rst = false) : step s = exec (decode s.ifid.output.instr) s :=
  if_neg (h ▸ Bool.false_ne_true)

/-- Settles O5: the released step is `exec` of the decoded word. -/
theorem stepRunsDecodedWord : Obligations.StepRunsDecodedWord := by
  rintro s i hrst _ rfl
  exact step_eq_exec hrst

/-- After a cycle with the pin released the step runs the word that the cycle fetched (R155). -/
theorem step_cycle {s : State} (h : s.rst = false) (d : Decoded) :
    step (s.cycle d) = exec (decode (imemRead s.cfg s.imem s.idex.output.nextPc)) (s.cycle d) :=
  step_eq_exec h

/-- Settles O6: `PC` is ID/EX's next address, which the cycle fetches from. -/
theorem wordAtPcRunsInTheNextStep : Obligations.WordAtPcRunsInTheNextStep := by
  rintro s hrst ⟨hpc, -⟩
  rw [hpc]
  exact ⟨_, step_of_released hrst, rfl, step_cycle hrst _⟩

theorem runsSafely (n : Nat) (s : State) : RunsSafely n s := by
  induction n generalizing s with
  | zero => exact ⟨s, run_zero s⟩
  | succ n ih =>
    obtain ⟨t, hstep⟩ := exists_step s
    rw [RunsSafely, run_succ_of_step n hstep]
    exact ih t

/-- Settles O7: every meaning is a cycle, and a run is one step after the other. -/
theorem nothingEverFaults : Obligations.NothingEverFaults :=
  ⟨fun i s => ⟨_, exec_eq_cycle i s⟩, runsSafely⟩

/-- The cycle with the decode tables is the flat datapath, the next address written as `selectedPc_eq` writes it. -/
theorem cycle_decodeByTables (s : State) : s.cycle (decodeByTables s.ifid.output.instr) = s.datapathCycle := by
  simp only [State.cycle, State.decodeStage, selectedPc_eq]
  rfl

/-- Settles O8: the tables give what the meaning of the decoded word issues. -/
theorem stepIsTheDatapathCycle : Obligations.StepIsTheDatapathCycle := by
  intro s hrst
  rw [step_of_released_byTables hrst, cycle_decodeByTables]

/-- The first edge of an empty pipeline: the word 0 of IF/ID selects `pc + 4`, address 0 is fetched, and nothing in EX/MEM
or MEM/WB stores or writes. -/
theorem step_of_empty_pipeline {s : State} (hrst : s.rst = false) (hifid : s.ifid = latched IfId.zero)
    (hidex : s.idex = latched IdEx.zero) (hexmem : s.exmem = latched ExMem.zero) (hmemwb : s.memwb = latched MemWb.zero) :
    ∃ t, step s = .next t ∧ t.ifid.output.instr = imemRead s.cfg s.imem 0#32 ∧ t.pc = 4#32 ∧
      t.idex.output.nextPc = 4#32 ∧ t.dmem = s.dmem ∧ t.bank = s.bank ∧
      step t = exec (decode (imemRead s.cfg s.imem 0#32)) t := by
  have hnop : (issued (decode s.ifid.output.instr)).ctl = Control.rtype := by rw [hifid]; decide
  have hnextPc : s.idex.output.nextPc = 0#32 := by rw [hidex]; rfl
  have hpc : s.selectedPc (issued (decode s.ifid.output.instr)) = 4#32 := by
    rw [selectedPc_of_no_transfer (congrArg Control.isJump hnop) (congrArg Control.isBranch hnop), hnextPc]
    rfl
  have hstore : s.exmem.output.memWrite = false := by rw [hexmem]; rfl
  have hwrite : s.memwb.output.regWrite = false := by rw [hmemwb]; rfl
  rw [← hnextPc]
  exact ⟨_, step_of_released hrst, rfl, hpc, hpc, dmemAfterMemory_of_no_store hstore,
    bankAfterWriteBack_of_no_write hwrite, step_cycle hrst _⟩

/-- Settles O18: construction leaves the pipeline empty, whatever the host puts into the collaborators. -/
theorem firstInstructionIsAtAddressZero : Obligations.FirstInstructionIsAtAddressZero := by
  intro cfg program bank data
  obtain ⟨t, hstep, hword, hpc, hnextPc, hdmem, hbank, hnext⟩ :=
    step_of_empty_pipeline (s := { State.construct cfg with imem := program, bank := bank, dmem := data })
      rfl rfl rfl rfl rfl
  exact ⟨t, hstep, hword, hpc, hnextPc, hdmem, fun k => congrArg (Claims.reg · k) hbank, hnext⟩

/-! ## What a cycle leaves alone -/

theorem reg_bankAfterWriteBack_of_other {s : State} {k : RegIdx}
    (h : ¬ (s.memwb.output.regWrite = true ∧ s.memwb.output.registerNum = k)) :
    Claims.reg s.bankAfterWriteBack k = Claims.reg s.bank k := by
  rw [reg_eq_bankRead, bankRead_bankAfterWriteBack, if_neg, reg_eq_bankRead]
  rw [memwbTap_iff]
  rintro ⟨hwrite, hnum, -⟩
  exact h ⟨hwrite, hnum⟩

theorem byteAt_dmemAfterMemory_of_other {s : State} {a : Nat}
    (h : ¬ (s.exmem.output.memWrite = true ∧ s.exmem.output.aluResult.toNat + 4 ≤ s.cfg.dmemBytes ∧
      s.exmem.output.aluResult.toNat ≤ a ∧ a < s.exmem.output.aluResult.toNat + 4)) :
    byteAt s.dmemAfterMemory a = byteAt s.dmem a := by
  rw [State.dmemAfterMemory, byteAt_memWrite, if_neg (by rwa [and_assoc])]

/-- Settles O44: one write port of the bank and one of the data store are all that a cycle writes besides the core. -/
theorem everyCycleHasThisFrame : Obligations.EveryCycleHasThisFrame := by
  intro i s
  exact ⟨_, exec_eq_cycle i s, rfl, rfl, rfl, fun _ => reg_bankAfterWriteBack_of_other,
    fun _ => byteAt_dmemAfterMemory_of_other⟩

/-! ## What a step never reads (R41, R43, R45, R152) -/

/-- Settles O48: both edges are built from the output sides and the collaborators. -/
theorem inputSidesAreNeverRead : Obligations.InputSidesAreNeverRead := by
  rintro ⟨rst, cfg, _, ⟨_, ifid⟩, ⟨_, idex⟩, ⟨_, exmem⟩, ⟨_, memwb⟩, bank, dmem, imem⟩
    ⟨_, _, _, ⟨_, _⟩, ⟨_, _⟩, ⟨_, _⟩, ⟨_, _⟩, _, _, _⟩ ⟨⟨⟩, ⟨⟩, ⟨⟩, ⟨⟩, ⟨⟩, ⟨⟩, ⟨⟩, ⟨⟩, ⟨⟩⟩
  simp only [step, exec_eq_cycle]
  rfl

/-- The fields kept for observation are copied along and nothing is computed from them. -/
theorem eraseObserved_cycle (s : State) (d : Decoded) :
    (s.cycle d).eraseObserved = (s.eraseObserved.cycle d).eraseObserved := rfl

theorem eraseObserved_resetEdge (s : State) : s.resetEdge.eraseObserved = s.eraseObserved.resetEdge.eraseObserved := rfl

/-- A step from a state and the step from its erasure agree but for the erased fields. -/
theorem step_eraseObserved {s s' : State} (h : step s = .next s') :
    ∃ u, step s.eraseObserved = .next u ∧ s'.eraseObserved = u.eraseObserved := by
  obtain ⟨hrst, rfl⟩ | ⟨hrst, rfl⟩ := step_cases h
  · exact ⟨_, step_of_reset hrst, eraseObserved_resetEdge s⟩
  · exact ⟨_, step_of_released hrst, eraseObserved_cycle s _⟩

theorem step_eraseObserved_congr {s t s' t' : State} (h : s.eraseObserved = t.eraseObserved) (hs : step s = .next s')
    (ht : step t = .next t') : s'.eraseObserved = t'.eraseObserved := by
  obtain ⟨u, hu, hs'⟩ := step_eraseObserved hs
  obtain ⟨v, hv, ht'⟩ := step_eraseObserved ht
  have huv : u = v := Host.Outcome.next.inj (hu.symm.trans ((congrArg step h).trans hv))
  rw [hs', ht', huv]

/-- Settles O49: one step at a time. -/
theorem observedFieldsInfluenceNothing : Obligations.ObservedFieldsInfluenceNothing := by
  intro n
  induction n with
  | zero =>
    intro s t s' t' h hs ht
    cases hs
    cases ht
    exact h
  | succ n ih =>
    intro s t s' t' h hs ht
    obtain ⟨u, hu, hsrun⟩ := run_succ_cases hs
    obtain ⟨v, hv, htrun⟩ := run_succ_cases ht
    exact ih u v s' t' (step_eraseObserved_congr h hu hv) hsrun htrun

end Sys2Proof.Machine
end

section
/-! Where control goes: straight-line code over a run, and the delay slot of a transfer (R37, R282 to R285). -/

namespace Sys2Proof.Machine

/-! ## Straight-line code (R37) -/

theorem controlOf_of_no_transfer {opcode : Field6} (h : opcode ∉ [opBeq, opJ]) :
    (controlOf opcode).isBranch = false ∧ (controlOf opcode).isJump = false := by
  simp only [List.mem_cons, List.not_mem_nil, or_false, not_or] at h
  obtain ⟨hbeq, hj⟩ := h
  rw [controlOf, if_neg hbeq, if_neg hj]
  split_ifs
  · exact ⟨rfl, rfl⟩
  · exact ⟨rfl, rfl⟩
  · exact ⟨rfl, rfl⟩
  · exact ⟨rfl, rfl⟩

/-- A machine that has no BEQ or J to run: the pin is released, and neither the instruction store nor IF/ID holds one. -/
structure State.StraightLine (s : State) : Prop where
  released : s.rst = false
  store : ∀ a : Word, opcodeOf (imemRead s.cfg s.imem a) ∉ [opBeq, opJ]
  decode : opcodeOf s.ifid.output.instr ∉ [opBeq, opJ]

/-- One edge of straight-line code: the next address advances by 4, and the word at the old one is fetched. -/
theorem step_of_straightLine {s t : State} (h : s.StraightLine) (hstep : step s = .next t) :
    t.StraightLine ∧ t.cfg = s.cfg ∧ t.imem = s.imem ∧ t.idex.output.nextPc = s.idex.output.nextPc + 4#32 ∧
      t.ifid.output.instr = imemRead s.cfg s.imem s.idex.output.nextPc := by
  obtain ⟨hbranch, hjump⟩ := controlOf_of_no_transfer h.decode
  obtain rfl := Host.Outcome.next.inj ((step_of_released_byTables h.released).symm.trans hstep)
  exact ⟨⟨h.released, h.store, h.store _⟩, rfl, rfl, selectedPc_of_no_transfer hjump hbranch, rfl⟩

theorem add_four_add_ofNat (a : Word) (n : Nat) :
    a + 4#32 + BitVec.ofNat 32 (4 * n) = a + BitVec.ofNat 32 (4 * (n + 1)) := by
  rw [BitVec.add_assoc, ← BitVec.ofNat_add]
  congr 2
  omega

/-- Settles O34: by induction on the length of the run, the first edge in front. -/
theorem straightLineAdvancesByFour : Obligations.StraightLineAdvancesByFour := by
  intro n s t hrst hstore hdecode
  have hline : s.StraightLine := ⟨hrst, hstore, hdecode⟩
  clear hrst hstore hdecode
  induction n generalizing s with
  | zero =>
    intro hrun
    cases hrun
    exact ⟨(BitVec.add_zero _).symm, fun k hk => absurd hk (by omega)⟩
  | succ n ih =>
    intro hrun
    obtain ⟨u, hstep, hrun⟩ := run_succ_cases hrun
    obtain ⟨huline, hcfg, himem, hnext, hfetch⟩ := step_of_straightLine hline hstep
    obtain ⟨hpc, hword⟩ := ih u huline hrun
    refine ⟨by rw [hpc, hnext, add_four_add_ofNat], fun k hk => ?_⟩
    obtain rfl : n = k := by omega
    cases n with
    | zero =>
      cases hrun
      rw [hfetch]
      exact congrArg _ (BitVec.add_zero _).symm
    | succ k => rw [hword k rfl, hcfg, himem, hnext, add_four_add_ofNat]

/-! ## The delay slot (R282 to R285) -/

/-- An instruction in decode, the word behind it, and the word at the address it selects, each run in its turn (R284). -/
theorem exec_then_delay_slot (i : Instr) {s : State} (hrst : s.rst = false) :
    ∃ s1 s2, exec i s = .next s1 ∧ s1.pc = s.selectedPc (issued i) ∧
      step s1 = exec (decode (imemRead s.cfg s.imem s.idex.output.nextPc)) s1 ∧ step s1 = .next s2 ∧
      step s2 = exec (decode (imemRead s.cfg s.imem s1.pc)) s2 := by
  have hrst1 : (s.cycle (issued i)).rst = false := hrst
  exact ⟨_, _, exec_eq_cycle i s, rfl, step_cycle hrst _, step_of_released hrst1, step_cycle hrst1 _⟩

theorem shift_two_eq_four_mul (a : Word) : a <<< 2 = 4#32 * a := by
  rw [BitVec.shiftLeft_eq_mul_twoPow, BitVec.mul_comm]
  rfl

/-- A BEQ of a register with itself is always taken. -/
theorem selectedPc_of_beq_self (s : State) (r : RegIdx) (imm : Imm16) :
    s.selectedPc (issued (.beq r r imm)) = s.idex.output.nextPc + 4#32 + 4#32 * imm.signExtend 32 := by
  rw [selectedPc_of_beq, if_pos rfl, shift_two_eq_four_mul]

/-- Settles O31: the transfer's `pc + 4` is `A + 8`, and the two words behind it run in turn. -/
theorem targetsAndTheDelaySlot : Obligations.TargetsAndTheDelaySlot := by
  intro s A hrst hpc
  have hbase : s.idex.output.nextPc + 4#32 = A + 8#32 := by
    rw [hpc, BitVec.add_assoc]
    rfl
  rw [← hpc, ← hbase]
  refine ⟨fun target => ?_, fun r imm => ?_⟩
  · obtain ⟨s1, s2, hexec, hsel, hslot, hstep, htarget⟩ := exec_then_delay_slot (.j target) hrst
    exact ⟨s1, s2, hexec, hsel.trans (selectedPc_of_j s target), hslot, hstep, htarget⟩
  · obtain ⟨s1, s2, hexec, hsel, hslot, hstep, htarget⟩ := exec_then_delay_slot (.beq r r imm) hrst
    exact ⟨s1, s2, hexec, hsel.trans (selectedPc_of_beq_self s r imm), hslot, hstep, htarget⟩

/-- Settles O32: after the first jump the next address is its target, from which the second transfer goes on. -/
theorem transferInADelaySlot : Obligations.TransferInADelaySlot := by
  intro s t1 t2 r imm hrst
  have hrst1 : (s.cycle (issued (.j t1))).rst = false := hrst
  obtain ⟨s2, s3, hexec, hsel, hslot, hstep, htarget⟩ := exec_then_delay_slot (.j t2) hrst1
  obtain ⟨s2', s3', hexec', hsel', hslot', hstep', htarget'⟩ := exec_then_delay_slot (.beq r r imm) hrst1
  exact ⟨_, s2, s2', s3, s3', exec_eq_cycle (.j t1) s,
    hexec, hsel.trans (selectedPc_of_j _ t2), hslot, hstep, htarget,
    hexec', hsel'.trans (selectedPc_of_beq_self _ r imm), hslot', hstep', htarget'⟩

end Sys2Proof.Machine
end

section
/-! A machine at zero stays at zero as long as it runs no LW, and only so long (R365, R383). -/

namespace Sys2Proof.Machine

/-! ## What a word other than a LW issues -/

/-- The rows of R109 other than LW's. -/
theorem controlOf_of_no_load {opcode : Field6} (h : opcode ≠ opLw) :
    controlOf opcode ∈ [Control.none, Control.rtype, Control.sw, Control.beq, Control.jump] := by
  rw [controlOf, if_neg h]
  split_ifs
  · simp
  · simp
  · simp
  · simp
  · simp

/-- In those rows write-back never takes the word read, and only the register-type row writes, which has no immediate. -/
theorem signals_of_no_load {c : Control} (h : c ∈ [Control.none, Control.rtype, Control.sw, Control.beq, Control.jump])
    (hwrite : c.regWrite = true) : c.memToReg = false ∧ c.aluSrc = false := by
  have hrows : ∀ c ∈ [Control.none, Control.rtype, Control.sw, Control.beq, Control.jump],
      c.regWrite = true → c.memToReg = false ∧ c.aluSrc = false := by decide
  exact hrows c h hwrite

/-- Every code that decode produces gives 0 on zeros. -/
theorem alu_zero_zero {ctl : AluCode} (h : ctl ∈ decodedAluCodes) : alu ctl 0#32 0#32 = 0#32 := by
  have hcodes : ∀ ctl ∈ decodedAluCodes, alu ctl 0#32 0#32 = 0#32 := by decide
  exact hcodes ctl h

@[simp] theorem byteOf_zero (k : Nat) : byteOf 0#32 k = 0#8 := by
  simp [byteOf]

/-! ## What a machine at zero reads and computes -/

namespace State.ZeroWithoutLoads

variable {s : State}

/-- Decode reads the bank after a write-back of 0. -/
theorem bankAfterWriteBack_zero (h : s.ZeroWithoutLoads) (k : RegIdx) : bankRead s.bankAfterWriteBack k = 0#32 := by
  rw [bankRead_bankAfterWriteBack]
  split_ifs with htap
  · exact h.writeBackZero ((memwbTap_iff s k).1 htap).1
  · exact h.registersZero k

/-- Both taps and the latched value are 0. -/
theorem forward_zero_value (h : s.ZeroWithoutLoads) (i : RegIdx) : s.forward i 0#32 = 0#32 := by
  rw [State.forward]
  split_ifs with hexmem hmemwb
  · exact (h.resultZero ((exmemTap_iff s i).1 hexmem).1).2
  · exact h.writeBackZero ((memwbTap_iff s i).1 hmemwb).1
  · rfl

theorem opA_zero (h : s.ZeroWithoutLoads) : s.opA = 0#32 := by
  rw [State.opA, h.operandsZero.1, h.forward_zero_value]

theorem fwdB_zero (h : s.ZeroWithoutLoads) : s.fwdB = 0#32 := by
  rw [State.fwdB, h.operandsZero.2, h.forward_zero_value]

/-- What execute computes for a register is 0: the register-type row takes both operands from registers. -/
theorem aluResult_zero (h : s.ZeroWithoutLoads) (hwrite : s.idex.output.regWrite = true) :
    s.idex.output.memToReg = false ∧ s.aluResult = 0#32 := by
  obtain ⟨hrow, halu⟩ := h.noLoadInExecute
  obtain ⟨hload, hsrc⟩ := signals_of_no_load hrow hwrite
  refine ⟨hload, ?_⟩
  rw [aluResult_of_registers hsrc, h.opA_zero, h.fwdB_zero, alu_zero_zero halu]

theorem wbValue_zero (h : s.ZeroWithoutLoads) (hwrite : s.exmem.output.regWrite = true) : s.wbValue = 0#32 := by
  obtain ⟨hload, hresult⟩ := h.resultZero hwrite
  rw [wbValue_of_aluResult hload, hresult]

/-- A store writes bytes of 0. -/
theorem byteAt_dmemAfterMemory_zero (h : s.ZeroWithoutLoads) (a : Nat) : byteAt s.dmemAfterMemory a = 0#8 := by
  rw [State.dmemAfterMemory, byteAt_memWrite, h.storeDataZero, byteOf_zero, h.bytesZero, ite_self]

end State.ZeroWithoutLoads

/-! ## Every step keeps it at zero -/

theorem zeroWithoutLoads_cycle {s : State} (h : s.ZeroWithoutLoads) :
    (s.cycle (decodeByTables s.ifid.output.instr)).ZeroWithoutLoads where
  noLoadFetched := h.noLoadFetched
  noLoadInDecode := h.noLoadFetched _
  noLoadInExecute := by
    refine ⟨controlOf_of_no_load h.noLoadInDecode, ?_⟩
    rw [← encode_decode s.ifid.output.instr, ← issued_eq_decodeByTables (decode_wellFormed _)]
    exact issued_aluCtl_mem _
  operandsZero := ⟨h.bankAfterWriteBack_zero _, h.bankAfterWriteBack_zero _⟩
  resultZero := h.aluResult_zero
  storeDataZero := h.fwdB_zero
  writeBackZero := h.wbValue_zero
  registersZero := h.bankAfterWriteBack_zero
  bytesZero := h.byteAt_dmemAfterMemory_zero

/-- A machine with an empty pipeline is at zero when its registers and bytes are. -/
theorem zeroWithoutLoads_of_empty_pipeline {s : State} (hstore : ∀ a : Word, opcodeOf (imemRead s.cfg s.imem a) ≠ opLw)
    (hregs : ∀ k, bankRead s.bank k = 0#32) (hbytes : ∀ a, byteAt s.dmem a = 0#8) (hifid : s.ifid = latched IfId.zero)
    (hidex : s.idex = latched IdEx.zero) (hexmem : s.exmem = latched ExMem.zero) (hmemwb : s.memwb = latched MemWb.zero) :
    s.ZeroWithoutLoads where
  noLoadFetched := hstore
  noLoadInDecode := by rw [hifid]; decide
  noLoadInExecute := by rw [hidex]; decide
  operandsZero := by rw [hidex]; decide
  resultZero := by rw [hexmem]; decide
  storeDataZero := by rw [hexmem]; decide
  writeBackZero := by rw [hmemwb]; decide
  registersZero := hregs
  bytesZero := hbytes

theorem step_keeps_zeroWithoutLoads {s t : State} (h : s.ZeroWithoutLoads) (hstep : step s = .next t) :
    t.ZeroWithoutLoads := by
  cases hrst : s.rst with
  | true =>
    obtain rfl := Host.Outcome.next.inj ((step_of_reset hrst).symm.trans hstep)
    exact zeroWithoutLoads_of_empty_pipeline h.noLoadFetched h.registersZero h.bytesZero rfl rfl rfl rfl
  | false =>
    obtain rfl := Host.Outcome.next.inj ((step_of_released_byTables hrst).symm.trans hstep)
    exact zeroWithoutLoads_cycle h

/-- Settles O52: the reset edge empties the pipeline, and a cycle moves zeros only. -/
theorem everyStepKeepsZeroWithoutLoads : Obligations.EveryStepKeepsZeroWithoutLoads :=
  fun _ _ => step_keeps_zeroWithoutLoads

/-- Settles O53: construction leaves the pipeline empty and the stores at zero. -/
theorem constructionIsZeroWithoutLoads : Obligations.ConstructionIsZeroWithoutLoads := by
  intro cfg program hprogram
  exact zeroWithoutLoads_of_empty_pipeline hprogram (fun k => (resetStoresReadZero cfg k 0 0#32).1) (fun _ => rfl)
    rfl rfl rfl rfl

/-- Settles O50: construction is at zero, and so is every state of the run. -/
theorem withoutLoadsZeroStaysZero : Obligations.WithoutLoadsZeroStaysZero := by
  intro cfg program n t hprogram hrun
  have hzero := run_keeps step_keeps_zeroWithoutLoads (constructionIsZeroWithoutLoads cfg program hprogram) hrun
  exact ⟨hzero.registersZero, hzero.bytesZero⟩

/-! ## A load breaks it -/

/-- `lw $1, 100($0)` and `add $2, $1, $1`. -/
def loadThenAdd : InstrStore := [(0, 0x8C010064#32), (1, 0x00211020#32)]

/-- Refutes O51: the addition directly behind the load takes the load's address (R383), so `$2` becomes `0xC8`. -/
theorem not_zeroStaysZeroForEveryProgram : ¬ Obligations.ZeroStaysZeroForEveryProgram := by
  intro h
  have hsix : ∃ t, Host.Core.run Sys2Proof.core 6 { State.construct Config.standard with imem := loadThenAdd } = .next t ∧
      Claims.reg t.bank 2#5 = 0xC8#32 := ⟨_, rfl, by decide⟩
  obtain ⟨t, hrun, hvalue⟩ := hsix
  have hzero : Claims.reg t.bank 2#5 = 0#32 := (h Config.standard loadThenAdd 6 t hrun).1 2#5
  rw [hvalue] at hzero
  exact absurd hzero (by decide)

end Sys2Proof.Machine
end

section
/-! Forwarding against the registers as they stand once the older instructions have written back: where the two agree, and
the hazards in which they do not (R170, R192, R383 to R387). -/

namespace Sys2Proof.Machine

/-! ## The forwarded value of a register -/

/-- With what decode latched one edge before, the forwarding unit of execute and the equality unit of decode give one and the
same value: EX/MEM's ALU result, else MEM/WB's value, else the bank's. -/
theorem forward_bankRead (s : State) (i : RegIdx) : s.forward i (bankRead s.bank i) = s.eqInput i := by
  rw [State.forward, State.eqInput, State.decodeRead, bankRead_bankAfterWriteBack]

/-- A register once the instructions in MEM/WB and in EX/MEM have written back. -/
theorem bankRead_committed (s : State) (d : Decoded) (k : RegIdx) :
    bankRead (s.cycle d).bankAfterWriteBack k = if s.exmemTap k = true then s.wbValue else s.decodeRead k :=
  bankRead_bankAfterWriteBack (s.cycle d) k

/-- Unless a load in EX/MEM writes the register, the forwarded value is the committed one (R192). -/
theorem eqInput_eq_committed {s : State} {k : RegIdx}
    (h : s.exmem.output.memToReg = true → s.exmemTap k = false) (d : Decoded) :
    s.eqInput k = bankRead (s.cycle d).bankAfterWriteBack k := by
  rw [bankRead_committed, State.eqInput]
  cases hload : s.exmem.output.memToReg with
  | false => rw [wbValue_of_aluResult hload]
  | true => simp [h hload]

/-- A tap of EX/MEM on the instruction that was in ID/EX an edge before. -/
theorem exmemTap_cycle_iff (s : State) (d : Decoded) (k : RegIdx) :
    (s.cycle d).exmemTap k = true ↔ s.idex.output.regWrite = true ∧ s.dest = k ∧ k ≠ 0#5 :=
  exmemTap_iff (s.cycle d) k

/-! ## The operands of an instruction in execute -/

theorem opA_cycle (s : State) (d : Decoded) : (s.cycle d).opA = (s.cycle d).eqInput (rsOf d.instr) :=
  forward_bankRead (s.cycle d) (rsOf d.instr)

theorem fwdB_cycle (s : State) (d : Decoded) : (s.cycle d).fwdB = (s.cycle d).eqInput (rtOf d.instr) :=
  forward_bankRead (s.cycle d) (rtOf d.instr)

/-- Where EX/MEM does not write the register, its value an edge after is the committed one. -/
theorem eqInput_cycle_of_no_tap {s : State} {d : Decoded} {k : RegIdx} (h : (s.cycle d).exmemTap k = false) :
    (s.cycle d).eqInput k = if s.exmemTap k = true then s.wbValue else s.decodeRead k := by
  rw [← bankRead_committed s d, State.eqInput, h]
  rfl

/-! ## The later stages of an instruction, by its control row -/

section
variable {s s1 s2 s3 s4 : State} {d d1 d2 d3 : Decoded}

theorem dmem_of_no_store (hctl : d.ctl.memWrite = false) (h1 : s1 = s.cycle d) (h2 : s2 = s1.cycle d1)
    (h3 : s3 = s2.cycle d2) : s3.dmem = s2.dmem := by
  have hstore : s2.exmem.output.memWrite = false := by rw [h2, h1]; exact hctl
  rw [h3, cycle_dmem, dmemAfterMemory_of_no_store hstore]

theorem bank_of_no_write (hctl : d.ctl.regWrite = false) (h1 : s1 = s.cycle d) (h2 : s2 = s1.cycle d1)
    (h3 : s3 = s2.cycle d2) (h4 : s4 = s3.cycle d3) : s4.bank = s3.bank := by
  have hwrite : s3.memwb.output.regWrite = false := by rw [h3, h2, h1]; exact hctl
  rw [h4, cycle_bank, bankAfterWriteBack_of_no_write hwrite]

/-- The write-back of what is in EX/MEM, two edges later. -/
theorem bank_eq_bankWrite (h3 : s3 = s2.cycle d2) (h4 : s4 = s3.cycle d3) :
    s4.bank = bankWrite s3.bank s2.exmem.output.registerNum s2.wbValue s2.exmem.output.regWrite := by
  rw [h4, h3]
  rfl

/-- A load in EX/MEM reads the word at its address (R180, R182). -/
theorem wbValue_of_lw {rs rt : RegIdx} {imm : Imm16} (path : AccessPath Control.lw rs rt imm s s1 s2) :
    s2.wbValue = memRead s2.cfg s2.dmem (s1.opA + imm.signExtend 32) true := by
  rw [wbValue_of_load path.memToReg, path.address, path.memRead]
  rfl

/-- A store in EX/MEM writes its forwarded data at its address (R181). -/
theorem dmemAfterMemory_of_sw {rs rt : RegIdx} {imm : Imm16} (path : AccessPath Control.sw rs rt imm s s1 s2) :
    s2.dmemAfterMemory = memWrite s2.cfg s2.dmem (s1.opA + imm.signExtend 32) s1.fwdB true := by
  rw [State.dmemAfterMemory, path.address, path.writeData, path.memWrite]
  rfl

theorem exmemTap_of_lw {rs rt : RegIdx} {imm : Imm16} (path : AccessPath Control.lw rs rt imm s s1 s2) (hrt : rt ≠ 0#5) :
    s2.exmemTap rt = true :=
  (exmemTap_iff s2 rt).2 ⟨path.regWrite, path.registerNum, hrt⟩

/-- A load in EX/MEM forwards its address, not yet its word (R383, R385). -/
theorem eqInput_of_lw {rs rt : RegIdx} {imm : Imm16} (path : AccessPath Control.lw rs rt imm s s1 s2) (hrt : rt ≠ 0#5) :
    s2.eqInput rt = s1.opA + imm.signExtend 32 :=
  (eqInput_of_exmemTap (exmemTap_of_lw path hrt)).trans path.address

end

/-- Settles O27: the store's memory cycle comes one edge before the load's. -/
theorem loadDirectlyAfterStoreSeesIt : Obligations.LoadDirectlyAfterStoreSeesIt := by
  intro s rs rt rs' rt' imm imm' hrst
  have hexec := exec_eq_cycle (.sw rs rt imm) s
  obtain ⟨s2, s3, s4, _, d1, d2, _, hexec', hstep2, hstep3, -, h2, h3, h4, -⟩ :=
    exec_then_three_steps (.lw rs' rt' imm') (s := s.cycle (issued (.sw rs rt imm))) hrst
  refine ⟨_, s2, s3, s4, hexec, hexec', hstep2, hstep3, fun haddr hrange => ?_⟩
  have store : AccessPath Control.sw rs rt imm s _ s2 := accessPath_of_cycles (.inr rfl) rfl rfl rfl h2
  have load : AccessPath Control.lw rs' rt' imm' _ s2 s3 := accessPath_of_cycles (.inl rfl) rfl rfl h2 h3
  have hcfg : s2.cfg = s.cfg := by rw [h2]; rfl
  have hcfg' : s3.cfg = s.cfg := by rw [h3, cycle_cfg, hcfg]
  rw [h4, cycle_memwb, latched_output, memoryStage_regWrData, wbValue_of_lw load, h3, cycle_dmem,
    dmemAfterMemory_of_sw store, ← h3, haddr, hcfg, hcfg', memRead_memWrite_same _ _ _ _ hrange]

/-! ## An instruction commits as if executed alone (R192, R387) -/

section
variable {i : Instr} {s s1 s2 s3 s4 : State} {d1 d2 d3 : Decoded}

/-- What a register-type instruction writes, from its forwarded operands; it stores nothing. -/
theorem rtype_writes {rs rt rd shamt : RegIdx} {funct : Field6} (f : Word → Word → Word)
    (h1 : s1 = s.cycle (issued i)) (h2 : s2 = s1.cycle d1) (h3 : s3 = s2.cycle d2) (h4 : s4 = s3.cycle d3)
    (hword : encode i = rtypeWord rs rt rd shamt funct) (hctl : (issued i).ctl = Control.rtype)
    (halu : ∀ a b, alu (issued i).aluCtl a b = f a b) :
    s4.bank = bankWrite s3.bank rd (f s1.opA s1.fwdB) true ∧ s3.dmem = s2.dmem := by
  have path := rtypePath_of_cycles hctl h1 h2 h3 h4
  rw [issued_instr, hword, rdOf_rtypeWord, halu] at path
  obtain ⟨-, -, -, -, -, -, -, -, -, hvalue, hnum, hwrite, hdmem, -⟩ := path
  refine ⟨?_, hdmem⟩
  rw [h4, cycle_bank, State.bankAfterWriteBack, hvalue, hnum, hwrite]

/-- A register-type instruction that reads both its registers as committed writes its result on the committed registers. -/
theorem rtype_commits {rs rt rd shamt : RegIdx} {funct : Field6} (f : Word → Word → Word)
    (h1 : s1 = s.cycle (issued i)) (h2 : s2 = s1.cycle d1) (h3 : s3 = s2.cycle d2) (h4 : s4 = s3.cycle d3)
    (hsource : ∀ k ∈ [rs, rt], s1.eqInput k = bankRead s3.bank k)
    (hword : encode i = rtypeWord rs rt rd shamt funct) (hctl : (issued i).ctl = Control.rtype)
    (halu : ∀ a b, alu (issued i).aluCtl a b = f a b) :
    s4.bank = (Arch.putResult { bank := s3.bank, dmem := s2.dmem } f rs rt rd).bank ∧ s3.dmem = s2.dmem := by
  obtain ⟨hbank, hdmem⟩ := rtype_writes f h1 h2 h3 h4 hword hctl halu
  have hopA : s1.opA = bankRead s3.bank rs := by
    rw [← hsource rs (by simp), h1, opA_cycle, issued_instr, hword, rsOf_rtypeWord]
  have hfwdB : s1.fwdB = bankRead s3.bank rt := by
    rw [← hsource rt (by simp), h1, fwdB_cycle, issued_instr, hword, rtOf_rtypeWord]
  rw [hopA, hfwdB] at hbank
  exact ⟨hbank, hdmem⟩

theorem lw_commits {rs rt : RegIdx} {imm : Imm16} (hsource : s1.eqInput rs = bankRead s3.bank rs)
    (h1 : s1 = s.cycle (issued (.lw rs rt imm))) (h2 : s2 = s1.cycle d1) (h3 : s3 = s2.cycle d2)
    (h4 : s4 = s3.cycle d3) :
    s4.bank = (Arch.run s2.cfg { bank := s3.bank, dmem := s2.dmem } (.lw rs rt imm)).bank ∧ s3.dmem = s2.dmem := by
  have path : AccessPath Control.lw rs rt imm s s1 s2 := accessPath_of_cycles (.inl rfl) rfl rfl h1 h2
  have hopA : s1.opA = bankRead s3.bank rs := by
    rw [← hsource, h1, opA_cycle, issued_instr, encode, rsOf_itypeWord]
  refine ⟨?_, dmem_of_no_store rfl h1 h2 h3⟩
  rw [bank_eq_bankWrite h3 h4, wbValue_of_lw path, hopA, path.registerNum, path.regWrite]
  rfl

theorem sw_commits {rs rt : RegIdx} {imm : Imm16} (hsource : ∀ k ∈ [rs, rt], s1.eqInput k = bankRead s3.bank k)
    (h1 : s1 = s.cycle (issued (.sw rs rt imm))) (h2 : s2 = s1.cycle d1) (h3 : s3 = s2.cycle d2)
    (h4 : s4 = s3.cycle d3) :
    s4.bank = s3.bank ∧ s3.dmem = (Arch.run s2.cfg { bank := s3.bank, dmem := s2.dmem } (.sw rs rt imm)).dmem := by
  have path : AccessPath Control.sw rs rt imm s s1 s2 := accessPath_of_cycles (.inr rfl) rfl rfl h1 h2
  have hopA : s1.opA = bankRead s3.bank rs := by
    rw [← hsource rs (by simp), h1, opA_cycle, issued_instr, encode, rsOf_itypeWord]
  have hfwdB : s1.fwdB = bankRead s3.bank rt := by
    rw [← hsource rt (by simp), h1, fwdB_cycle, issued_instr, encode, rtOf_itypeWord]
  have hdmem : s3.dmem = s2.dmemAfterMemory := by rw [h3, cycle_dmem]
  refine ⟨bank_of_no_write rfl h1 h2 h3 h4, ?_⟩
  rw [hdmem, dmemAfterMemory_of_sw path, hopA, hfwdB]
  rfl

/-- Over four cycles: an instruction whose execute sources are forwarded as committed has exactly its effect alone. -/
theorem commits_as_if_alone (hsource : ∀ k ∈ executeSources i, s1.eqInput k = bankRead s3.bank k)
    (h1 : s1 = s.cycle (issued i)) (h2 : s2 = s1.cycle d1) (h3 : s3 = s2.cycle d2) (h4 : s4 = s3.cycle d3) :
    s4.bank = (Arch.run s2.cfg { bank := s3.bank, dmem := s2.dmem } i).bank ∧
      s3.dmem = (Arch.run s2.cfg { bank := s3.bank, dmem := s2.dmem } i).dmem := by
  cases i with
  | add rs rt rd shamt => exact rtype_commits (· + ·) h1 h2 h3 h4 hsource rfl rfl alu_aluAdd
  | sub rs rt rd shamt => exact rtype_commits (· - ·) h1 h2 h3 h4 hsource rfl rfl alu_aluSub
  | and rs rt rd shamt => exact rtype_commits (· &&& ·) h1 h2 h3 h4 hsource rfl rfl alu_aluAnd
  | or rs rt rd shamt => exact rtype_commits (· ||| ·) h1 h2 h3 h4 hsource rfl rfl alu_aluOr
  | slt rs rt rd shamt => exact rtype_commits setLessThan h1 h2 h3 h4 hsource rfl rfl alu_aluSlt
  | lw rs rt imm => exact lw_commits (hsource rs (List.mem_singleton_self rs)) h1 h2 h3 h4
  | sw rs rt imm => exact sw_commits hsource h1 h2 h3 h4
  | beq rs rt imm => exact ⟨bank_of_no_write rfl h1 h2 h3 h4, dmem_of_no_store rfl h1 h2 h3⟩
  | j target => exact ⟨bank_of_no_write rfl h1 h2 h3 h4, dmem_of_no_store rfl h1 h2 h3⟩
  | rtypeUnmappedFunct rs rt rd shamt funct =>
    exact rtype_writes (fun _ _ => 0#32) h1 h2 h3 h4 rfl rfl alu_aluInvalid
  | unmappedOpcode opcode rest => exact ⟨bank_of_no_write rfl h1 h2 h3 h4, dmem_of_no_store rfl h1 h2 h3⟩

end

/-- Settles O35: the premise keeps a load in EX/MEM off the operands, so they are forwarded as committed. -/
theorem everyInstructionCommitsAsIfAlone : Obligations.EveryInstructionCommitsAsIfAlone := by
  intro s i hrst _ hload
  obtain ⟨s1, s2, s3, s4, d1, d2, d3, hexec, hstep1, hstep2, hstep3, h1, h2, h3, h4⟩ := exec_then_three_steps i hrst
  have hsource : ∀ k ∈ executeSources i, s1.eqInput k = bankRead s3.bank k := by
    intro k hk
    rw [h3, cycle_bank, h2]
    refine eqInput_eq_committed (fun hmem => ?_) d1
    rw [Bool.eq_false_iff, h1, ne_eq, exmemTap_cycle_iff]
    rintro ⟨-, rfl, hne⟩
    rw [h1] at hmem
    obtain hno | hzero | hother := hload
    · exact Bool.false_ne_true (hno.symm.trans hmem)
    · exact hne hzero
    · exact hother hk
  have hcfg : s2.cfg = s.cfg := by rw [h2, cycle_cfg, h1, cycle_cfg]
  rw [← hcfg]
  exact ⟨s1, s2, s3, s4, hexec, hstep1, hstep2, hstep3, commits_as_if_alone hsource h1 h2 h3 h4⟩

/-! ## The equality unit's operands (R384, R385, R387) -/

/-- With no producer in execute and no load of the register in EX/MEM, the equality unit's value is the one the register holds
once both have written back. -/
theorem eqInput_eq_committed_past_execute {s : State} {d : Decoded} {k : RegIdx}
    (hidex : (s.cycle d).exmemTap k = false) (hload : s.exmem.output.memToReg = true → s.exmemTap k = false)
    (d1 : Decoded) : s.eqInput k = bankRead ((s.cycle d).cycle d1).bankAfterWriteBack k := by
  rw [eqInput_eq_committed hload d, bankRead_committed (s.cycle d) d1, hidex]
  rfl

/-- Settles O36: both operands are compared as committed. -/
theorem branchDecidesOnCommittedValues : Obligations.BranchDecidesOnCommittedValues := by
  intro s rs rt imm hrst hfree
  obtain ⟨s1, s2, s3, _, d1, d2, _, hexec, hstep1, hstep2, -, h1, h2, h3, -⟩ :=
    exec_then_three_steps (.beq rs rt imm) hrst
  have hcommitted : ∀ r ∈ [rs, rt], s.eqInput r = Claims.reg s3.bank r := by
    intro r hr
    rw [h3, h2, h1]
    refine eqInput_eq_committed_past_execute ?_ (fun hmem => ?_) d1
    · rw [Bool.eq_false_iff, ne_eq, exmemTap_cycle_iff]
      rintro ⟨hwrite, hdest, hne⟩
      exact (hfree r hr hne).1 ⟨hwrite, hdest⟩
    · rw [Bool.eq_false_iff, ne_eq, exmemTap_iff]
      rintro ⟨hwrite, hnum, hne⟩
      exact (hfree r hr hne).2 ⟨hwrite, hnum, hmem⟩
  refine ⟨s1, s2, s3, hexec, hstep1, hstep2, ?_⟩
  rw [h1, cycle_pc, selectedPc_of_beq, hcommitted rs (by simp), hcommitted rt (by simp)]

/-- The equality unit's value against the committed register: a load in EX/MEM gives its address instead (R385). -/
theorem eqInput_eq_address_or_committed (s : State) (d : Decoded) (r : RegIdx) :
    s.eqInput r =
      if s.exmem.output.regWrite = true ∧ s.exmem.output.memToReg = true ∧ s.exmem.output.registerNum = r ∧ r ≠ 0#5
      then s.exmem.output.aluResult else Claims.reg (s.cycle d).bankAfterWriteBack r := by
  split_ifs with hload
  · obtain ⟨hwrite, -, hnum, hne⟩ := hload
    exact eqInput_of_exmemTap ((exmemTap_iff s r).2 ⟨hwrite, hnum, hne⟩)
  · refine eqInput_eq_committed (fun hmem => ?_) d
    rw [Bool.eq_false_iff, ne_eq, exmemTap_iff]
    rintro ⟨hwrite, hnum, hne⟩
    exact hload ⟨hwrite, hmem, hnum, hne⟩

/-- Settles O38: the producer is in execute, where the equality unit has no tap, and writes back one edge after `s3`. -/
theorem branchAfterProducerIsStale : Obligations.BranchAfterProducerIsStale := by
  intro s i rs rt imm hrst
  obtain ⟨s2, s3, s4, _, d2, d3, _, hexec', hstep2, hstep3, -, h2, h3, h4, -⟩ :=
    exec_then_three_steps (.beq rs rt imm) (s := s.cycle (issued i)) hrst
  refine ⟨_, s2, s3, s4, exec_eq_cycle i s, hexec', hstep2, hstep3, ?_, fun hwrite hdest k => ?_⟩
  · have hbank : s3.bank = ((s.cycle (issued i)).cycle (issued (.beq rs rt imm))).bankAfterWriteBack := by
      rw [h3, cycle_bank, h2]
    rw [hbank, h2, cycle_pc, selectedPc_of_beq, eqInput_eq_address_or_committed _ (issued (.beq rs rt imm)) rs,
      eqInput_eq_address_or_committed _ (issued (.beq rs rt imm)) rt]
    rfl
  · have hnum : s3.memwb.output.registerNum = (s.cycle (issued i)).dest := by rw [h3, h2]; rfl
    have hwrite' : s3.memwb.output.regWrite = true := by rw [h3, h2]; exact hwrite
    rw [h4, cycle_bank, reg_bankAfterWriteBack hwrite', hnum]
    simp only [hdest, ne_eq, not_false_eq_true, and_true]

/-- Settles O39: the load is in EX/MEM, so the equality unit takes its address for `rt`, and the bank for any other. -/
theorem branchAfterLoadComparesTheAddress : Obligations.BranchAfterLoadComparesTheAddress := by
  intro s rs rt other imm imm' hrst hrt hother
  obtain ⟨s1, s2, _, _, d1, _, _, hexec, hstep1, -, -, h1, h2, -, -⟩ := exec_then_three_steps (.lw rs rt imm) hrst
  have path : AccessPath Control.lw rs rt imm s s1 s2 := accessPath_of_cycles (.inl rfl) rfl rfl h1 h2
  have hvalue : s2.eqInput other = s2.decodeRead other := by
    refine if_neg fun htap => ?_
    obtain ⟨-, hnum, -⟩ := (exmemTap_iff s2 other).1 htap
    exact hother (hnum.symm.trans path.registerNum)
  have hnextPc : s2.idex.output.nextPc = s2.pc := by rw [h2]; rfl
  refine ⟨s1, s2, _, hexec, hstep1, exec_eq_cycle _ s2, ?_⟩
  rw [cycle_pc, selectedPc_of_beq, eqInput_of_lw path hrt, hvalue, hnextPc]
  rfl

/-! ## The operands directly behind a load (R383, R386) -/

/-- Settles O37: one edge behind, EX/MEM forwards the address; two edges behind, MEM/WB holds the word read. -/
theorem loadUseGetsTheAddress : Obligations.LoadUseGetsTheAddress := by
  intro s rs rt imm hrst hrt
  obtain ⟨s1, hexec, h1⟩ : ∃ s1, exec (.lw rs rt imm) s = .next s1 ∧ s1 = s.cycle (issued (.lw rs rt imm)) :=
    ⟨_, exec_eq_cycle _ s, rfl⟩
  have hrst1 : s1.rst = false := by rw [h1, cycle_rst, hrst]
  obtain ⟨s2, hstep1, h2⟩ : ∃ s2, step s1 = .next s2 ∧ s2 = s1.cycle (decodeByTables s1.ifid.output.instr) :=
    ⟨_, step_of_released_byTables hrst1, rfl⟩
  have hrst2 : s2.rst = false := by rw [h2, cycle_rst, hrst1]
  have path : AccessPath Control.lw rs rt imm s s1 s2 := accessPath_of_cycles (.inl rfl) rfl rfl h1 h2
  have haddress := eqInput_of_lw path hrt
  refine ⟨s1, s2, _, hexec, hstep1, step_of_released_byTables hrst2, fun hrs' => ?_, fun hrt' => ?_, fun hfree => ?_⟩
  · rw [← haddress, h2, opA_cycle, decodeByTables_instr, hrs']
  · rw [← haddress, h2, fwdB_cycle, decodeByTables_instr, hrt']
  · have hno : (s2.cycle (decodeByTables s2.ifid.output.instr)).exmemTap rt = false := by
      rw [Bool.eq_false_iff, ne_eq, exmemTap_cycle_iff]
      rintro ⟨hwrite, hdest, -⟩
      exact hfree ⟨hwrite, hdest⟩
    have hcfg : s2.cfg = s.cfg := by rw [h2, cycle_cfg, h1, cycle_cfg]
    have hword : (s2.cycle (decodeByTables s2.ifid.output.instr)).eqInput rt =
        memRead s.cfg s2.dmem (s1.opA + imm.signExtend 32) true := by
      rw [eqInput_cycle_of_no_tap hno, if_pos (exmemTap_of_lw path hrt), wbValue_of_lw path, hcfg]
    refine ⟨fun hrs' => ?_, fun hrt' => ?_⟩
    · rw [← hword, opA_cycle, decodeByTables_instr, hrs']
    · rw [← hword, fwdB_cycle, decodeByTables_instr, hrt']

/-- Settles O40: the store's data, and its base if it is the loaded register, are forwarded from the load in EX/MEM. -/
theorem storeAfterLoadStoresTheAddress : Obligations.StoreAfterLoadStoresTheAddress := by
  intro s rs rt rs' imm imm' hrst hrt
  obtain ⟨s2, s3, s4, _, d2, d3, _, hexec', hstep2, hstep3, -, h2, h3, h4, -⟩ :=
    exec_then_three_steps (.sw rs' rt imm') (s := s.cycle (issued (.lw rs rt imm))) hrst
  have load : AccessPath Control.lw rs rt imm s _ s2 := accessPath_of_cycles (.inl rfl) rfl rfl rfl h2
  have store : AccessPath Control.sw rs' rt imm' _ s2 s3 := accessPath_of_cycles (.inr rfl) rfl rfl h2 h3
  have haddress := eqInput_of_lw load hrt
  have hdata : s2.fwdB = s2.eqInput rt := by rw [h2, fwdB_cycle, issued_instr, encode, rtOf_itypeWord]
  have hbase : s2.opA = s2.eqInput rs' := by rw [h2, opA_cycle, issued_instr, encode, rsOf_itypeWord]
  have hcfg : s3.cfg = s.cfg := by rw [h3, h2]; rfl
  refine ⟨_, s2, s3, s4, exec_eq_cycle (.lw rs rt imm) s, hexec', hstep2, hstep3, fun k hk hrange => ?_, fun hrs => ?_⟩
  · rw [h4, cycle_dmem, byteAt_dmemAfterMemory_of_store store.memWrite, store.address, store.writeData, hcfg, hdata,
      haddress, if_pos ⟨hrange, by omega, by omega⟩, Nat.add_sub_cancel_left]
  · rw [hbase, hrs, haddress]

end Sys2Proof.Machine
end
